-- ==== Sys2Proof/Word.lean ====
section
/-! DEFINITION. The value types of the machine, by width: spec/00_scope.md R6 and R8, spec/30_encoding.md R51. -/

namespace Sys2Proof

/-- An 8-bit value: a general register, a timer, a memory cell, a byte literal (R6, R11). -/
abbrev Byte := BitVec 8

/-- A 16-bit value: the instruction word, `pc`, `I` and a return-stack entry (R6, R13, R14, R15). -/
abbrev Word := BitVec 16

/-- A register index: the 4-bit fields `x` and `y`; every value names a register (R51, R220). -/
abbrev Reg := BitVec 4

/-- A 4-bit field or literal: the primary opcode `t`, the sub-opcode or sprite height `n` (R51). -/
abbrev Nibble := BitVec 4

/-- The 12-bit address literal `nnn` (R51). -/
abbrev Addr12 := BitVec 12

/-- A keypad snapshot: bit `k` is `KEY[k]`, 1 = pressed (R8, R192). -/
abbrev Keypad := BitVec 16

/-- The framebuffer's 2048 one-bit pixels, by row: bit `column` of row `row` is `FB[row * 64 + column]`
(R17). -/
abbrev FrameBuffer := Vector (BitVec 64) 32

end Sys2Proof
end

