-- ==== Sys2Proof/Config.lean ====
section
/-! DEFINITION. What an implementation fixes, and the free values (spec/00_scope.md R6, R7; spec/92_eei_decisions.md). -/

namespace Sys2Proof

/-- `SHIFT_SOURCE`: which register `SHR` and `SHL` read (R7, R123; D3). -/
inductive ShiftSource where
  | x
  | y
  deriving DecidableEq, Repr

/-- `DRAW_EDGE`: what happens to sprite pixels past the right or bottom edge (R7, R172; D4). -/
inductive DrawEdge where
  | wrap
  | clip
  deriving DecidableEq, Repr

/-- `KEYWAIT_POLICY`: which key ends a key-wait (R7, R197, R199; D11). -/
inductive KeyWaitPolicy where
  | anyLowest
  | regValue
  | regIndex
  deriving DecidableEq, Repr

/-- `BNNN_TARGET`: whether `Bnnn` loads `I` or jumps (R7, R141; D13). -/
inductive BnnnTarget where
  | index
  | pc
  deriving DecidableEq, Repr

/-- The parameters of R7 that a model takes as configuration, constant for the life of an engine (R21).
The values R7 calls "fixed by decision" are plain constants of Machine/Platform.lean. -/
structure Params where
  /-- `FONT_BASE` -/
  fontBase : Nat
  /-- `STACK_DEPTH` -/
  stackDepth : Nat
  /-- `PRNG_MUL` -/
  prngMul : Byte
  /-- `PRNG_INC` -/
  prngInc : Byte
  /-- `PRNG_SEED` -/
  prngSeed : Byte
  /-- `SHIFT_SOURCE` -/
  shiftSource : ShiftSource
  /-- `DRAW_EDGE` -/
  drawEdge : DrawEdge
  /-- `KEYWAIT_POLICY` -/
  keyWaitPolicy : KeyWaitPolicy
  /-- `BNNN_TARGET` -/
  bnnnTarget : BnnnTarget
  deriving DecidableEq, Repr

/-- `PRNG_MUL` of the hardware: `OPEN` in R7 and R161, so a free value (log entry 3). -/
opaque Config.prngMul : Byte

/-- `PRNG_INC` of the hardware: `OPEN` in R7 and R161, so a free value (log entry 3). -/
opaque Config.prngInc : Byte

/-- `PRNG_SEED` of the hardware: `OPEN` in R7 and R161, so a free value (log entry 3). -/
opaque Config.prngSeed : Byte

/-- The keypad snapshot the host presents at the `n`-th tick whose snapshot `State.keyFeed` does not
give: any 16-bit value (R192, R239; log entry 1). -/
opaque Config.freeKeys : Nat → Keypad

/-- The ALU's `r` output for `EQ`: "unspecified, unused" (R111; log entry 4). -/
opaque Config.aluEqResult : Byte → Byte → Byte

end Sys2Proof
end

