-- ==== Sys2Proof/Machine/Platform.lean ====
section
/-! DEFINITION. The machine's fixed numbers, the glyph table and the default parameters
(spec/00_scope.md R6, R7; spec/10_state.md R24). -/

namespace Sys2Proof.Machine

/-- `MEM_SIZE` = 4096 bytes (R6, R30). -/
def memSize : Nat := 4096

/-- `FB_WIDTH` = 64 pixels (R6, R17). -/
def fbWidth : Nat := 64

/-- `FB_HEIGHT` = 32 pixels (R6, R17). -/
def fbHeight : Nat := 32

/-- `NUM_KEYS` = 16 (R6). -/
def numKeys : Nat := 16

/-- `FLAG_REG` = 15: `VF` (R6, R12). -/
def flagReg : Reg := 15

/-- `PROGRAM_START` = `0x200` (R7, R13; D6). -/
def programStart : Nat := 0x200

/-- `GLYPH_BYTES` = 5 (R7, R24; D7). -/
def glyphBytes : Nat := 5

/-- The glyphs of the hexadecimal digits 0 to F, top row first (R24). -/
def fontGlyphs : List (List Byte) :=
  [ [0xF0, 0x90, 0x90, 0x90, 0xF0],
    [0x20, 0x60, 0x20, 0x20, 0x70],
    [0xF0, 0x10, 0xF0, 0x80, 0xF0],
    [0xF0, 0x10, 0xF0, 0x10, 0xF0],
    [0x90, 0x90, 0xF0, 0x10, 0x10],
    [0xF0, 0x80, 0xF0, 0x10, 0xF0],
    [0xF0, 0x80, 0xF0, 0x90, 0xF0],
    [0xF0, 0x10, 0x20, 0x40, 0x40] ] ++
  [ [0xF0, 0x90, 0xF0, 0x90, 0xF0],
    [0xF0, 0x90, 0xF0, 0x10, 0xF0],
    [0xF0, 0x90, 0xF0, 0x90, 0x90],
    [0xE0, 0x90, 0xE0, 0x90, 0xE0],
    [0xF0, 0x80, 0x80, 0x80, 0xF0],
    [0xE0, 0x90, 0x90, 0x90, 0xE0],
    [0xF0, 0x80, 0xF0, 0x80, 0xF0],
    [0xF0, 0x80, 0xF0, 0x80, 0x80] ]

/-- `FONT_ROM[0..79]`: glyph `d` stands at `FONT_ROM[5d .. 5d+4]` (R24). -/
def fontRom : List Byte := fontGlyphs.flatten

/-- The reset contents of `MEM`, which is what an address the memory list does not name reads as:
`FONT_ROM` from `FONT_BASE` on, every other byte 0 (R23, R250). -/
def resetByte (fontBase a : Nat) : Byte :=
  if fontBase ≤ a then fontRom.getD (a - fontBase) 0 else 0

/-- The defaults of R7, with the three open generator constants as free values. -/
def defaultParams : Params where
  fontBase := 0x000
  stackDepth := 16
  prngMul := Config.prngMul
  prngInc := Config.prngInc
  prngSeed := Config.prngSeed
  shiftSource := .x
  drawEdge := .wrap
  keyWaitPolicy := .anyLowest
  bnnnTarget := .index

end Sys2Proof.Machine
end

