-- ==== Sys2Proof/Machine/State.lean ====
section
/-! DEFINITION. The machine's state, whole (spec/10_state.md R10), its reset value (R23, R250), and the
reasons a step can stop (spec/60_exceptions.md R220). -/

namespace Sys2Proof.Machine

/-- The key-wait latch: one valid bit and a 4-bit register index (R18). -/
inductive Wait where
  /-- No register is recorded: the next tick is a real step. -/
  | running
  /-- The next tick is a wait tick; a key's index will go to `V[r]`. -/
  | awaitingKey (r : Reg)
  deriving DecidableEq, Repr

/-- `MEM`, as the cells that differ from their reset contents, by rising address; an address with no
cell reads as `resetByte` (R20, R23). -/
abbrev Memory := List Host.Cell

/-- The machine. The fields up to `mem` are the tuple of R10. The last three are the model's own: the
parameters of R7, which no operation changes (log entry 2), and the host's keypad input (log entry 1). -/
structure State where
  /-- `V[0..15]`; `V[15]` is `VF` (R11, R12). -/
  v : Vector Byte 16
  /-- The program counter, a byte address (R13). -/
  pc : Word
  /-- `I`, the index register (R14). -/
  i : Word
  /-- `STACK[0 .. STACK_DEPTH-1]`, oldest frame first; a popped slot keeps its contents (R15). -/
  stack : List Word
  /-- `SP`, the number of active frames (R15). -/
  sp : Nat
  /-- The delay timer (R16). -/
  dt : Byte
  /-- The sound timer (R16). -/
  st : Byte
  /-- The framebuffer (R17). -/
  fb : FrameBuffer
  /-- The key-wait latch (R18). -/
  wait : Wait
  /-- The generator's running value (R19). -/
  rng : Byte
  /-- The one memory (R20). -/
  mem : Memory
  /-- The configuration of this engine (R7, R21). -/
  params : Params
  /-- The keypad snapshots of the coming ticks, the next tick's first; where it ends, snapshots are free. -/
  keyFeed : List Keypad
  /-- How many free snapshots have been used up. -/
  keyCount : Nat
  deriving DecidableEq, Repr

/-- The errors of R220. A tick that raises one ends with all state as it was at its start (R224), so
the outcome carries only the code and payload. Each is the spec's own: safe. -/
inductive Fault where
  /-- Code 1, raised by fetch and by `DRW`, `LD B`, `LD [I]`, `LD Vx,[I]`: `a` is the lowest offending address (R221). Safe. -/
  | outOfBounds (a : Nat)
  /-- Code 2, raised by decode: `w` is the word fetched (R222). Safe. -/
  | undecodable (w : Word)
  /-- Code 3, raised by `CALL` when the stack is full (R223). Safe. -/
  | stackOverflow
  /-- Code 4, raised by `RET` when no frame is active (R223). Safe. -/
  | stackUnderflow
  /-- Code 5, raised by the host operation `load_program` only, never by a step (R225). Safe. -/
  | capacityExceeded
  deriving DecidableEq, Repr

/-- Why a step has no meaning. -/
inductive Refusal where
  /-- Raised by `exec` for an instruction with no meaning in the model; no arm of this model is refused. Safe. -/
  | notModelled (mnemonic : String)
  deriving DecidableEq, Repr

/-- The state right after reset of an engine configured by `p` (R23, R250). The last two fields are the
model's own input (log entry 1). -/
def State.resetWith (p : Params) : State where
  v := Vector.replicate 16 0
  pc := BitVec.ofNat 16 programStart
  i := 0
  stack := List.replicate p.stackDepth 0
  sp := 0
  dt := 0
  st := 0
  fb := Vector.replicate 32 0
  wait := .running
  rng := p.prngSeed
  mem := []
  params := p
  keyFeed := []
  keyCount := 0

/-- The state right after reset under the default parameters of R7. -/
def State.reset : State := State.resetWith defaultParams

end Sys2Proof.Machine
end

