-- ==== Sys2Proof/Machine/Ops.lean ====
section
/-! DEFINITION. The named operations over registers, memory, stack, `pc`, errors and the keypad input that
the meanings share (spec/00_scope.md R8, spec/20_memory.md, spec/10_state.md, spec/60_exceptions.md R224). -/

namespace Sys2Proof.Machine

/-! ## General registers (R8, R11) -/

/-- `V[r]`. No register is hardwired and every index names one (R11). -/
def State.readReg (s : State) (r : Reg) : Byte := s.v[r.toNat]'r.isLt

/-- `V[r] <- b` (R8). -/
def State.writeReg (s : State) (r : Reg) (b : Byte) : State := { s with v := s.v.set r.toNat b r.isLt }

/-! ## The registers with one field each (R14, R16 to R19) -/

/-- `I <- w` (R14). -/
def State.setIndex (s : State) (w : Word) : State := { s with i := w }

/-- `DT <- b` (R16). -/
def State.setDt (s : State) (b : Byte) : State := { s with dt := b }

/-- `ST <- b` (R16). -/
def State.setSt (s : State) (b : Byte) : State := { s with st := b }

/-- `FB <- fb` (R17). -/
def State.setFb (s : State) (fb : FrameBuffer) : State := { s with fb := fb }

/-- `WAIT <- w` (R18). -/
def State.setWait (s : State) (w : Wait) : State := { s with wait := w }

/-- `RNG <- b` (R19). -/
def State.setRng (s : State) (b : Byte) : State := { s with rng := b }

/-- `MEM <- m` (R20). -/
def State.setMem (s : State) (m : Memory) : State := { s with mem := m }

/-- `STACK <- frames` and `SP <- n` (R15). -/
def State.setStack (s : State) (frames : List Word) (n : Nat) : State := { s with stack := frames, sp := n }

/-! ## Memory (R30 to R34) -/

/-- The byte a cell list gives for an address, `d` where it lists none. -/
def Memory.lookup (d : Byte) : Memory → Nat → Byte
  | [], _ => d
  | c :: m, a => if c.1 = a then c.2 else Memory.lookup d m a

/-- `MEM[a]` (R20, R23). -/
def Memory.read (fontBase : Nat) (m : Memory) (a : Nat) : Byte := Memory.lookup (resetByte fontBase a) m a

/-- The cell list with the cell for `a` set to `b`, addresses rising. -/
def Memory.insert (a : Nat) (b : Byte) : Memory → Memory
  | [] => [(a, b)]
  | c :: m =>
    if a < c.1 then (a, b) :: c :: m
    else if a = c.1 then (a, b) :: m
    else c :: Memory.insert a b m

/-- The cell list with no cell for `a`. -/
def Memory.erase (a : Nat) : Memory → Memory
  | [] => []
  | c :: m => if c.1 = a then Memory.erase a m else c :: Memory.erase a m

/-- `MEM[a] <- b`, in canonical form: a cell equal to the reset contents is not listed. -/
def Memory.write (fontBase : Nat) (m : Memory) (a : Nat) (b : Byte) : Memory :=
  if b = resetByte fontBase a then Memory.erase a m else Memory.insert a b m

/-- `MEM[a+k] <- bytes[k]`, for `k` ascending (R34). -/
def Memory.writeBytes (fontBase : Nat) : Memory → Nat → List Byte → Memory
  | m, _, [] => m
  | m, a, b :: bs => Memory.writeBytes fontBase (Memory.write fontBase m a b) (a + 1) bs

/-- The canonical form: addresses strictly rising and below 4096, no cell equal to the reset contents. -/
abbrev Memory.wf (fontBase : Nat) (m : Memory) : Prop :=
  m.Pairwise (fun c d => c.1 < d.1) ∧ ∀ c ∈ m, c.1 < memSize ∧ c.2 ≠ resetByte fontBase c.1

/-- `MEM[a]` in a state. -/
def State.readByte (s : State) (a : Nat) : Byte := Memory.read s.params.fontBase s.mem a

/-- The least address of `addr .. addr+n-1` that is `>= 4096`, if there is one (R33). -/
def firstOutside (addr n : Nat) : Option Nat := (List.range' addr n).find? (fun a => decide (memSize ≤ a))

/-- `MemRead(addr, n)` (R33). -/
def State.memRead (s : State) (addr n : Nat) : Except Fault (List Byte) :=
  match firstOutside addr n with
  | some a => .error (.outOfBounds a)
  | none => .ok ((List.range' addr n).map s.readByte)

/-- `MemWrite(addr, n, bytes)` with `n` the length of `bytes`: the whole range is checked before any
byte is written (R34). -/
def State.memWrite (s : State) (addr : Nat) (bytes : List Byte) : Except Fault State :=
  match firstOutside addr bytes.length with
  | some a => .error (.outOfBounds a)
  | none => .ok (s.setMem (Memory.writeBytes s.params.fontBase s.mem addr bytes))

/-! ## The program counter multiplexer (R79) -/

/-- NEXT: the normal advance `pc <- trunc_16(pc + 2)`. -/
def State.advance (s : State) : State := { s with pc := s.pc + 2 }

/-- SKIP when `c` holds, else NEXT: the common rule of the six skips (R94). -/
def State.skipIf (s : State) (c : Bool) : State := { s with pc := if c then s.pc + 4 else s.pc + 2 }

/-- `pc <- target`. -/
def State.jump (s : State) (target : Word) : State := { s with pc := target }

/-! ## The return stack (R15, R92, R93) -/

/-- Push a frame, where one is free: `STACK[SP] <- w; SP <- SP + 1`. -/
def State.push (s : State) (w : Word) : Option State :=
  if s.sp < s.params.stackDepth then some (s.setStack (s.stack.set s.sp w) (s.sp + 1)) else none

/-- Pop a frame, where one is active: `SP <- SP - 1`, and the entry `STACK[SP]` read after it. -/
def State.pop (s : State) : Option (Word × State) :=
  if s.sp = 0 then none else some (s.stack.getD (s.sp - 1) 0, s.setStack s.stack (s.sp - 1))

/-! ## Raising an error (R224) -/

/-- `raise e`: the tick ends with the error as its result and no state changes; nothing is saved, no
mode changes and control goes to no handler. There is no return from an error in the machine (R228). -/
def raise (e : Fault) : Host.Outcome State Fault Refusal := .fault e

/-! ## The keypad input (R21, R192; log entry 1) -/

/-- `KEY` of the tick under way: what the host presents, any value where the feed gives none. -/
def State.key (s : State) : Keypad :=
  match s.keyFeed with
  | [] => Config.freeKeys s.keyCount
  | k :: _ => k

/-- The input after a tick has used its snapshot: the machine keeps no copy of it (R192). -/
def State.consumeKey (s : State) : State :=
  match s.keyFeed with
  | [] => { s with keyCount := s.keyCount + 1 }
  | _ :: ks => { s with keyFeed := ks }

/-- The host presents the snapshot `k` to the coming tick. -/
def State.presentKey (s : State) (k : Keypad) : State := { s with keyFeed := k :: s.keyFeed }

/-- `KEY[k]` of a snapshot (R8). -/
def keyPressed (keys : Keypad) (k : Nat) : Bool := keys.getLsbD k

end Sys2Proof.Machine
end

