-- ==== Sys2Proof/Machine/Flags.lean ====
section
/-! DEFINITION. The 8-bit ALU with its flag output, and the flag write (spec/42_alu.md R110 to R113). -/

namespace Sys2Proof.Machine

/-- The nine `aluop` values (R110). -/
inductive AluOp where
  | passB
  | add
  | or
  | and
  | xor
  | sub
  | shr
  | shl
  | eq
  deriving DecidableEq, Repr

/-- The ALU's outputs (R110). -/
structure AluOut where
  r : Byte
  flag : Bool
  eq : Bool
  deriving DecidableEq, Repr

/-- The carry out of an 8-bit sum: the 9-bit sum exceeds 255 (R111, R121). -/
def carryOut (a b : Byte) : Bool := decide (a.toNat + b.toNat > 255)

/-- The subtraction flag: strictly greater, as unsigned values (R111, R122). -/
def strictlyGreater (a b : Byte) : Bool := decide (a.toNat > b.toNat)

/-- The ALU's result `r` (R111); for `EQ` it is unspecified, a free value (log entry 4). -/
def aluResult (op : AluOp) (a b : Byte) : Byte :=
  match op with
  | .passB => b
  | .add => BitVec.ofNat 8 (a.toNat + b.toNat)
  | .or => a ||| b
  | .and => a &&& b
  | .xor => a ^^^ b
  | .sub => BitVec.ofInt 8 ((a.toNat : Int) - (b.toNat : Int))
  | .shr => a >>> 1
  | .shl => a <<< 1
  | .eq => Config.aluEqResult a b

/-- The ALU's `flag` output (R111). -/
def aluFlag (op : AluOp) (a b : Byte) : Bool :=
  match op with
  | .add => carryOut a b
  | .sub => strictlyGreater a b
  | .shr => a.getLsbD 0
  | .shl => a.getLsbD 7
  | .passB => false
  | .or => false
  | .and => false
  | .xor => false
  | .eq => false

/-- The ALU, a pure function (R110, R111). -/
def alu (op : AluOp) (a b : Byte) : AluOut := ⟨aluResult op a b, aluFlag op a b, a == b⟩

/-- The value a flag leaves in `VF`: `0x00` or `0x01` (R12). -/
def flagByte (f : Bool) : Byte := if f then 0x01 else 0x00

/-- `VF <- f` (R12). -/
def State.writeFlag (s : State) (f : Bool) : State := s.writeReg flagReg (flagByte f)

/-- `regwe` = 1, `fwe` = 0: the result goes to `V[x]`, the flag output nowhere, `pc` advances (R78). -/
def State.aluToReg (s : State) (op : AluOp) (x : Reg) (a b : Byte) : State :=
  (s.writeReg x (alu op a b).r).advance

/-- `regwe` = 1, `fwe` = 1: the result goes to `V[x]`, then the flag to `VF`, which wins when `x` = 15
(R78, R113). -/
def State.aluToRegAndFlag (s : State) (op : AluOp) (x : Reg) (a b : Byte) : State :=
  ((s.writeReg x (alu op a b).r).writeFlag (alu op a b).flag).advance

end Sys2Proof.Machine
end

