-- ==== Sys2Proof/Machine/Operands.lean ====
section
/-! DEFINITION. Every operand form of spec/30_encoding.md R53 and the implicit operands of spec/40_step_and_dispatch.md R78. -/

namespace Sys2Proof.Machine

/-- An address literal, zero-extended to 16 bits: absolute, not scaled (R53). -/
def addrOperand (nnn : Addr12) : Word := nnn.setWidth 16

/-- The register a shift reads: `V[x]`, or `V[y]` when `SHIFT_SOURCE` = `Y` (R123). -/
def State.shiftOperand (s : State) (x y : Reg) : Byte :=
  match s.params.shiftSource with
  | .x => s.readReg x
  | .y => s.readReg y

/-- `nnn + V[0]`, truncated to 16 bits; the offset register is always `V[0]` (R141). -/
def State.offsetOperand (s : State) (nnn : Addr12) : Word := BitVec.ofNat 16 (nnn.toNat + (s.readReg 0).toNat)

/-- The low four bits of a register: the key index of R193 and the digit of R143. -/
def lowNibble (b : Byte) : Nibble := b.extractLsb' 0 4

/-- The key a register's value indexes: its low four bits (R193). -/
def State.keyOperand (s : State) (x : Reg) : Nat := (lowNibble (s.readReg x)).toNat

/-- The address of the glyph of a register's low four bits (R143). -/
def State.glyphAddress (s : State) (x : Reg) : Word :=
  BitVec.ofNat 16 (s.params.fontBase + glyphBytes * (lowNibble (s.readReg x)).toNat)

/-- The number of registers a block transfer moves: the field `x` itself, plus one (R53, R146). -/
def blockLength (x : Reg) : Nat := x.toNat + 1

/-- `[V[0], V[1], ..., V[x]]` (R147). -/
def State.readBlock (s : State) (x : Reg) : List Byte :=
  (List.range (blockLength x)).map (fun k => s.readReg (BitVec.ofNat 4 k))

/-- `V[k] <- b_k` for the bytes of a block, from register `k` on (R148). -/
def State.writeBlock (s : State) : Nat → List Byte → State
  | _, [] => s
  | k, b :: bs => State.writeBlock (s.writeReg (BitVec.ofNat 4 k) b) (k + 1) bs

/-- The three decimal digits of a register's value: hundreds, tens, units, a byte each (R145). -/
def bcdDigits (v : Byte) : List Byte :=
  [BitVec.ofNat 8 (v.toNat / 100), BitVec.ofNat 8 (v.toNat / 10 % 10), BitVec.ofNat 8 (v.toNat % 10)]

end Sys2Proof.Machine
end

