-- ==== Sys2Proof/Machine/Arith.lean ====
section
/-! DEFINITION. The load, arithmetic, logic and shift instructions (spec/42_alu.md), each one ALU operation of the
dispatch table R78. -/

namespace Sys2Proof.Machine

/-- `LD Vx, nn` (R114). -/
def execLdImm (x : Reg) (nn : Byte) (s : State) : Host.Outcome State Fault Refusal :=
  .next (s.aluToReg .passB x (s.readReg x) nn)

/-- `ADD Vx, nn`: the carry is discarded (R115). -/
def execAddImm (x : Reg) (nn : Byte) (s : State) : Host.Outcome State Fault Refusal :=
  .next (s.aluToReg .add x (s.readReg x) nn)

/-- `LD Vx, Vy` (R116). -/
def execLdReg (x y : Reg) (s : State) : Host.Outcome State Fault Refusal :=
  .next (s.aluToReg .passB x (s.readReg x) (s.readReg y))

/-- `OR Vx, Vy` (R117). -/
def execOr (x y : Reg) (s : State) : Host.Outcome State Fault Refusal :=
  .next (s.aluToReg .or x (s.readReg x) (s.readReg y))

/-- `AND Vx, Vy` (R118). -/
def execAnd (x y : Reg) (s : State) : Host.Outcome State Fault Refusal :=
  .next (s.aluToReg .and x (s.readReg x) (s.readReg y))

/-- `XOR Vx, Vy` (R119). -/
def execXor (x y : Reg) (s : State) : Host.Outcome State Fault Refusal :=
  .next (s.aluToReg .xor x (s.readReg x) (s.readReg y))

/-- `ADD Vx, Vy` (R121). -/
def execAddReg (x y : Reg) (s : State) : Host.Outcome State Fault Refusal :=
  .next (s.aluToRegAndFlag .add x (s.readReg x) (s.readReg y))

/-- `SUB Vx, Vy`: `V[x]` is the minuend (R122). -/
def execSub (x y : Reg) (s : State) : Host.Outcome State Fault Refusal :=
  .next (s.aluToRegAndFlag .sub x (s.readReg x) (s.readReg y))

/-- `SHR Vx {, Vy}` (R123). -/
def execShr (x y : Reg) (s : State) : Host.Outcome State Fault Refusal :=
  .next (s.aluToRegAndFlag .shr x (s.shiftOperand x y) (s.readReg y))

/-- `SUBN Vx, Vy`: `V[y]` is the minuend (R124). -/
def execSubn (x y : Reg) (s : State) : Host.Outcome State Fault Refusal :=
  .next (s.aluToRegAndFlag .sub x (s.readReg y) (s.readReg x))

/-- `SHL Vx {, Vy}` (R125). -/
def execShl (x y : Reg) (s : State) : Host.Outcome State Fault Refusal :=
  .next (s.aluToRegAndFlag .shl x (s.shiftOperand x y) (s.readReg y))

end Sys2Proof.Machine
end

