-- ==== Sys2Proof/Machine/Control.lean ====
section
/-! DEFINITION. Control transfer and the four register skips (spec/41_control_and_skip.md). -/

namespace Sys2Proof.Machine

/-- `JP nnn` (R90). -/
def execJp (nnn : Addr12) (s : State) : Host.Outcome State Fault Refusal :=
  .next (s.jump (addrOperand nnn))

/-- `CALL nnn`: pushes the address of the `CALL` itself (R92; D9). -/
def execCall (nnn : Addr12) (s : State) : Host.Outcome State Fault Refusal :=
  match s.push s.pc with
  | some t => .next (t.jump (addrOperand nnn))
  | none => raise .stackOverflow

/-- `RET`: resumes two bytes after the popped `CALL` address (R93; D9). -/
def execRet (s : State) : Host.Outcome State Fault Refusal :=
  match s.pop with
  | some (w, t) => .next (t.jump (w + 2))
  | none => raise .stackUnderflow

/-- `SE Vx, nn` (R95). -/
def execSeImm (x : Reg) (nn : Byte) (s : State) : Host.Outcome State Fault Refusal :=
  .next (s.skipIf (alu .eq (s.readReg x) nn).eq)

/-- `SNE Vx, nn` (R96). -/
def execSneImm (x : Reg) (nn : Byte) (s : State) : Host.Outcome State Fault Refusal :=
  .next (s.skipIf (!(alu .eq (s.readReg x) nn).eq))

/-- `SE Vx, Vy` (R97). -/
def execSeReg (x y : Reg) (s : State) : Host.Outcome State Fault Refusal :=
  .next (s.skipIf (alu .eq (s.readReg x) (s.readReg y)).eq)

/-- `SNE Vx, Vy` (R98). -/
def execSneReg (x y : Reg) (s : State) : Host.Outcome State Fault Refusal :=
  .next (s.skipIf (!(alu .eq (s.readReg x) (s.readReg y)).eq))

end Sys2Proof.Machine
end

