-- ==== Sys2Proof/Machine/Display.lean ====
section
/-! DEFINITION. The sprite XOR compositor, `CLS` and `DRW` (spec/45_display.md). -/

namespace Sys2Proof.Machine

/-- The framebuffer's row `cy`, its column `cx` at bit `cx` (R17). -/
def fbRow (fb : FrameBuffer) (cy : Nat) : BitVec 64 := fb[cy]?.getD 0

/-- `FB[k]`, `k = row * 64 + column` (R17). -/
def pixel (fb : FrameBuffer) (k : Nat) : Bool := (fbRow fb (k / fbWidth)).getLsbD (k % fbWidth)

/-- `FB[k] <- FB[k] xor 1` (R175). -/
def togglePixel (fb : FrameBuffer) (k : Nat) : FrameBuffer :=
  fb.setIfInBounds (k / fbWidth) (fbRow fb (k / fbWidth) ^^^ BitVec.twoPow 64 (k % fbWidth))

/-- The framebuffer with every pixel unset (R174). -/
def clearFb : FrameBuffer := Vector.replicate 32 0

/-- `place(x0, y0, c, r)`: the framebuffer index of the sprite's pixel in column `c`, row `r`, and
`none` where `DRAW_EDGE` = `Clip` drops it (R172, R175). -/
def place (edge : DrawEdge) (x0 y0 : Byte) (c r : Nat) : Option Nat :=
  match edge with
  | .wrap => some ((y0.toNat + r) % fbHeight * fbWidth + (x0.toNat + c) % fbWidth)
  | .clip =>
    let ox := x0.toNat % fbWidth
    let oy := y0.toNat % fbHeight
    if ox + c < fbWidth ∧ oy + r < fbHeight then some ((oy + r) * fbWidth + (ox + c)) else none

/-- The framebuffer and the collision bit, as the loops of R175 carry them. -/
abbrev Canvas := FrameBuffer × Bool

/-- The loop body of R175 for one sprite bit. -/
def drawBit (edge : DrawEdge) (x0 y0 row : Byte) (r : Nat) (acc : Canvas) (c : Nat) : Canvas :=
  if row.getLsbD (7 - c) then
    match place edge x0 y0 c r with
    | some k => (togglePixel acc.1 k, acc.2 || pixel acc.1 k)
    | none => acc
  else acc

/-- The inner loop of R175: bit 7 of the row is its leftmost pixel (R171). -/
def drawRow (edge : DrawEdge) (x0 y0 row : Byte) (r : Nat) (acc : Canvas) : Canvas :=
  (List.range 8).foldl (drawBit edge x0 y0 row r) acc

/-- The outer loop of R175, from sprite row `r` downward. -/
def drawRows (edge : DrawEdge) (x0 y0 : Byte) : Nat → List Byte → Canvas → Canvas
  | _, [], acc => acc
  | r, row :: rows, acc => drawRows edge x0 y0 (r + 1) rows (drawRow edge x0 y0 row r acc)

/-- The compositor: the new framebuffer and whether any pixel went from set to unset (R170, R173, R175). -/
def composite (edge : DrawEdge) (fb : FrameBuffer) (rows : List Byte) (x0 y0 : Byte) : Canvas :=
  drawRows edge x0 y0 0 rows (fb, false)

/-- `CLS` (R174). -/
def execCls (s : State) : Host.Outcome State Fault Refusal :=
  .next (s.setFb clearFb).advance

/-- `DRW Vx, Vy, n`: the coordinates are read before `VF` is written, and all `n` rows are read before
any pixel changes (R175). -/
def execDrw (x y : Reg) (n : Nibble) (s : State) : Host.Outcome State Fault Refusal :=
  match s.memRead s.i.toNat n.toNat with
  | .ok rows =>
    let drawn := composite s.params.drawEdge s.fb rows (s.readReg x) (s.readReg y)
    .next ((s.setFb drawn.1).writeFlag drawn.2).advance
  | .error e => raise e

end Sys2Proof.Machine
end

