-- ==== Sys2Proof/Machine/IndexMemory.lean ====
section
/-! DEFINITION. The index register, font address, BCD and block transfers (spec/43_index_and_memory.md). No
instruction here writes `I` except `LD I`, `ADD I` and `LD F` (R144). -/

namespace Sys2Proof.Machine

/-- `LD I, nnn` (R140). -/
def execLdI (nnn : Addr12) (s : State) : Host.Outcome State Fault Refusal :=
  .next (s.setIndex (addrOperand nnn)).advance

/-- `LD I, V0+nnn`: loads `I`, or jumps when `BNNN_TARGET` = `PC` (R141). -/
def execLdIV0 (nnn : Addr12) (s : State) : Host.Outcome State Fault Refusal :=
  match s.params.bnnnTarget with
  | .index => .next (s.setIndex (s.offsetOperand nnn)).advance
  | .pc => .next (s.jump (s.offsetOperand nnn))

/-- `ADD I, Vx`: kept to 16 bits, no flag (R142). -/
def execAddI (x : Reg) (s : State) : Host.Outcome State Fault Refusal :=
  .next (s.setIndex (BitVec.ofNat 16 (s.i.toNat + (s.readReg x).toNat))).advance

/-- `LD F, Vx` (R143). -/
def execLdF (x : Reg) (s : State) : Host.Outcome State Fault Refusal :=
  .next (s.setIndex (s.glyphAddress x)).advance

/-- `LD B, Vx` (R145). -/
def execLdB (x : Reg) (s : State) : Host.Outcome State Fault Refusal :=
  match s.memWrite s.i.toNat (bcdDigits (s.readReg x)) with
  | .ok t => .next t.advance
  | .error e => raise e

/-- `LD [I], Vx` (R146, R147). -/
def execLdMemVx (x : Reg) (s : State) : Host.Outcome State Fault Refusal :=
  match s.memWrite s.i.toNat (s.readBlock x) with
  | .ok t => .next t.advance
  | .error e => raise e

/-- `LD Vx, [I]`: every byte is read before any register is written (R146, R148). -/
def execLdVxMem (x : Reg) (s : State) : Host.Outcome State Fault Refusal :=
  match s.memRead s.i.toNat (blockLength x) with
  | .ok bytes => .next (s.writeBlock 0 bytes).advance
  | .error e => raise e

end Sys2Proof.Machine
end

