-- ==== Sys2Proof/Machine/KeysTimers.lean ====
section
/-! DEFINITION. The key tests, the key-wait machine and the timer pair (spec/46_keys_and_timers.md). -/

namespace Sys2Proof.Machine

/-! ## Key tests -/

/-- `SKP Vx` (R190, R193). -/
def execSkp (x : Reg) (s : State) : Host.Outcome State Fault Refusal :=
  .next (s.skipIf (keyPressed s.key (s.keyOperand x)))

/-- `SKNP Vx` (R191, R193). -/
def execSknp (x : Reg) (s : State) : Host.Outcome State Fault Refusal :=
  .next (s.skipIf (!keyPressed s.key (s.keyOperand x)))

/-! ## The key-wait machine -/

/-- `LD Vx, K`: looks at no key and writes no register (R196). -/
def execLdVxK (x : Reg) (s : State) : Host.Outcome State Fault Refusal :=
  .next (s.setWait (.awaitingKey x)).advance

/-- The least `k` with `KEY[k]` = 1 (R197). -/
def lowestKey (keys : Keypad) : Option Nat := (List.range numKeys).find? (keyPressed keys)

/-- The byte that ends the wait on register `r`, if the snapshot ends it (R197, R199). -/
def State.awaitedKey (s : State) (r : Reg) (keys : Keypad) : Option Byte :=
  match s.params.keyWaitPolicy with
  | .anyLowest => (lowestKey keys).map (BitVec.ofNat 8)
  | .regValue => if keyPressed keys (s.keyOperand r) then some (BitVec.ofNat 8 (s.keyOperand r)) else none
  | .regIndex => if keyPressed keys r.toNat then some (BitVec.ofNat 8 r.toNat) else none

/-- `wait_check(r, KEY)`: the whole of a wait tick (R197). -/
def State.waitCheck (s : State) (r : Reg) (keys : Keypad) : State :=
  match s.awaitedKey r keys with
  | some b => (s.writeReg r b).setWait .running
  | none => s

/-! ## The timer pair -/

/-- One countdown: by one when nonzero, and never below zero (R206). -/
def countDown (b : Byte) : Byte := if b = 0 then 0 else b - 1

/-- `timers_step()`, the last action of a real step that did not raise (R206). -/
def State.timersStep (s : State) : State := (s.setDt (countDown s.dt)).setSt (countDown s.st)

/-- `beep = (ST != 0)`, the source's `should_beep` (R208). -/
def State.beep (s : State) : Bool := s.st != 0

/-- `LD Vx, DT`: the value before this step's decrement (R200). -/
def execLdVxDt (x : Reg) (s : State) : Host.Outcome State Fault Refusal :=
  .next (s.aluToReg .passB x (s.readReg x) s.dt)

/-- `LD DT, Vx` (R201). -/
def execLdDtVx (x : Reg) (s : State) : Host.Outcome State Fault Refusal :=
  .next (s.setDt (s.readReg x)).advance

/-- `LD ST, Vx` (R202). -/
def execLdStVx (x : Reg) (s : State) : Host.Outcome State Fault Refusal :=
  .next (s.setSt (s.readReg x)).advance

end Sys2Proof.Machine
end

