-- ==== Sys2Proof/Machine/Random.lean ====
section
/-! DEFINITION. The linear-congruential generator and `RND` (spec/44_random.md). -/

namespace Sys2Proof.Machine

/-- `prng_next(s) = trunc_8(PRNG_MUL * s + PRNG_INC)` (R161). -/
def prngNext (p : Params) (s : Byte) : Byte :=
  BitVec.ofNat 8 (p.prngMul.toNat * s.toNat + p.prngInc.toNat)

/-- `RND Vx, nn`: the new generator state, masked (R162). -/
def execRnd (x : Reg) (nn : Byte) (s : State) : Host.Outcome State Fault Refusal :=
  .next ((s.setRng (prngNext s.params s.rng)).aluToReg .and x (prngNext s.params s.rng) nn)

end Sys2Proof.Machine
end

