-- ==== Sys2Proof/Syntax.lean ====
section
/-! DEFINITION. The 34 instructions: one constructor per row of spec/opcode_table.json, carrying the
operand fields of spec/40_step_and_dispatch.md R76 and no other. -/

namespace Sys2Proof

/-- A decoded operation: the tag and the fields R76 says it carries. `x`, `y` are register indices,
`nn` a byte literal, `nnn` a 12-bit address, `n` a sprite height (R51, R53). -/
inductive Instr where
  /-- `00E0` CLS (R174) -/
  | cls
  /-- `00EE` RET (R93) -/
  | ret
  /-- `1nnn` JP nnn (R90) -/
  | jp (nnn : Addr12)
  /-- `2nnn` CALL nnn (R92) -/
  | call (nnn : Addr12)
  /-- `3xnn` SE Vx, nn (R95) -/
  | seImm (x : Reg) (nn : Byte)
  /-- `4xnn` SNE Vx, nn (R96) -/
  | sneImm (x : Reg) (nn : Byte)
  /-- `5xy0` SE Vx, Vy (R97) -/
  | seReg (x y : Reg)
  /-- `6xnn` LD Vx, nn (R114) -/
  | ldImm (x : Reg) (nn : Byte)
  /-- `7xnn` ADD Vx, nn (R115) -/
  | addImm (x : Reg) (nn : Byte)
  /-- `8xy0` LD Vx, Vy (R116) -/
  | ldReg (x y : Reg)
  /-- `8xy1` OR Vx, Vy (R117) -/
  | or (x y : Reg)
  /-- `8xy2` AND Vx, Vy (R118) -/
  | and (x y : Reg)
  /-- `8xy3` XOR Vx, Vy (R119) -/
  | xor (x y : Reg)
  /-- `8xy4` ADD Vx, Vy (R121) -/
  | addReg (x y : Reg)
  /-- `8xy5` SUB Vx, Vy (R122) -/
  | sub (x y : Reg)
  /-- `8xy6` SHR Vx, Vy (R123); the field `y` is carried even where it is ignored (R77) -/
  | shr (x y : Reg)
  /-- `8xy7` SUBN Vx, Vy (R124) -/
  | subn (x y : Reg)
  /-- `8xyE` SHL Vx, Vy (R125); the field `y` is carried even where it is ignored (R77) -/
  | shl (x y : Reg)
  /-- `9xy0` SNE Vx, Vy (R98) -/
  | sneReg (x y : Reg)
  /-- `Annn` LD I, nnn (R140) -/
  | ldI (nnn : Addr12)
  /-- `Bnnn` LD I, V0+nnn (R141) -/
  | ldIV0 (nnn : Addr12)
  /-- `Cxnn` RND Vx, nn (R162) -/
  | rnd (x : Reg) (nn : Byte)
  /-- `Dxyn` DRW Vx, Vy, n (R175) -/
  | drw (x y : Reg) (n : Nibble)
  /-- `Ex9E` SKP Vx (R190) -/
  | skp (x : Reg)
  /-- `ExA1` SKNP Vx (R191) -/
  | sknp (x : Reg)
  /-- `Fx07` LD Vx, DT (R200) -/
  | ldVxDt (x : Reg)
  /-- `Fx0A` LD Vx, K (R196) -/
  | ldVxK (x : Reg)
  /-- `Fx15` LD DT, Vx (R201) -/
  | ldDtVx (x : Reg)
  /-- `Fx18` LD ST, Vx (R202) -/
  | ldStVx (x : Reg)
  /-- `Fx1E` ADD I, Vx (R142) -/
  | addI (x : Reg)
  /-- `Fx29` LD F, Vx (R143) -/
  | ldF (x : Reg)
  /-- `Fx33` LD B, Vx (R145) -/
  | ldB (x : Reg)
  /-- `Fx55` LD [I], Vx (R147) -/
  | ldMemVx (x : Reg)
  /-- `Fx65` LD Vx, [I] (R148) -/
  | ldVxMem (x : Reg)
  deriving DecidableEq, Repr

/-- One operand field of an instruction word: bits `hi` down to `lo` hold `value` (R51). -/
structure OperandField where
  hi : Nat
  lo : Nat
  value : Nat
  deriving DecidableEq, Repr

/-- The field `x` = `w[11:8]` (R51). -/
def OperandField.x (r : Reg) : OperandField := ⟨11, 8, r.toNat⟩
/-- The field `y` = `w[7:4]` (R51). -/
def OperandField.y (r : Reg) : OperandField := ⟨7, 4, r.toNat⟩
/-- The field `n` = `w[3:0]` (R51). -/
def OperandField.n (v : Nibble) : OperandField := ⟨3, 0, v.toNat⟩
/-- The field `nn` = `w[7:0]` (R51). -/
def OperandField.nn (v : Byte) : OperandField := ⟨7, 0, v.toNat⟩
/-- The field `nnn` = `w[11:0]` (R51). -/
def OperandField.nnn (v : Addr12) : OperandField := ⟨11, 0, v.toNat⟩

/-- The operand fields an instruction carries, with their places in the word (R51, R76;
the "fields" of spec/opcode_table.json). -/
def Instr.fields : Instr → List OperandField
  | .cls => []
  | .ret => []
  | .jp a => [.nnn a]
  | .call a => [.nnn a]
  | .seImm x v => [.x x, .nn v]
  | .sneImm x v => [.x x, .nn v]
  | .seReg x y => [.x x, .y y]
  | .ldImm x v => [.x x, .nn v]
  | .addImm x v => [.x x, .nn v]
  | .ldReg x y => [.x x, .y y]
  | .or x y => [.x x, .y y]
  | .and x y => [.x x, .y y]
  | .xor x y => [.x x, .y y]
  | .addReg x y => [.x x, .y y]
  | .sub x y => [.x x, .y y]
  | .shr x y => [.x x, .y y]
  | .subn x y => [.x x, .y y]
  | .shl x y => [.x x, .y y]
  | .sneReg x y => [.x x, .y y]
  | .ldI a => [.nnn a]
  | .ldIV0 a => [.nnn a]
  | .rnd x v => [.x x, .nn v]
  | .drw x y n => [.x x, .y y, .n n]
  | .skp x => [.x x]
  | .sknp x => [.x x]
  | .ldVxDt x => [.x x]
  | .ldVxK x => [.x x]
  | .ldDtVx x => [.x x]
  | .ldStVx x => [.x x]
  | .addI x => [.x x]
  | .ldF x => [.x x]
  | .ldB x => [.x x]
  | .ldMemVx x => [.x x]
  | .ldVxMem x => [.x x]

/-- The instruction's row number in the opcode map of R55 (and in spec/opcode_table.json, from 1). -/
def Instr.row : Instr → Nat
  | .cls => 1
  | .ret => 2
  | .jp _ => 3
  | .call _ => 4
  | .seImm _ _ => 5
  | .sneImm _ _ => 6
  | .seReg _ _ => 7
  | .ldImm _ _ => 8
  | .addImm _ _ => 9
  | .ldReg _ _ => 10
  | .or _ _ => 11
  | .and _ _ => 12
  | .xor _ _ => 13
  | .addReg _ _ => 14
  | .sub _ _ => 15
  | .shr _ _ => 16
  | .subn _ _ => 17
  | .shl _ _ => 18
  | .sneReg _ _ => 19
  | .ldI _ => 20
  | .ldIV0 _ => 21
  | .rnd _ _ => 22
  | .drw _ _ _ => 23
  | .skp _ => 24
  | .sknp _ => 25
  | .ldVxDt _ => 26
  | .ldVxK _ => 27
  | .ldDtVx _ => 28
  | .ldStVx _ => 29
  | .addI _ => 30
  | .ldF _ => 31
  | .ldB _ => 32
  | .ldMemVx _ => 33
  | .ldVxMem _ => 34

end Sys2Proof
end

