-- ==== Sys2Proof/WellFormed.lean ====
section
/-! DEFINITION. Well-formedness of what comes from outside the machine: an instruction's operands, the
configuration, and a program to load. -/

namespace Sys2Proof

/-- An operand field is well-formed when its value fits its bits (R51). -/
def OperandField.wellFormed (f : OperandField) : Bool :=
  decide (f.lo ≤ f.hi ∧ f.hi < 16 ∧ f.value < 2 ^ (f.hi - f.lo + 1))

/-- An instruction is well-formed when each operand fits its field (R51, R53). The operands' types
have the fields' widths, so every term of `Instr` passes (`Laws.PerInstr`): R220, "no register index
is invalid (4-bit fields cover exactly 0..15)". -/
def Instr.wellFormed (i : Instr) : Bool := i.fields.all OperandField.wellFormed

/-- What R7, R31 and spec/92_eei_decisions.md require of a configuration: the glyph table lies wholly
below the program start, and the stack has at least one entry. -/
def Params.wellFormed (p : Params) : Bool :=
  decide (p.fontBase + Machine.fontRom.length ≤ Machine.programStart) && decide (1 ≤ p.stackDepth)

/-- A program is loadable when it fits between the program start and the end of memory (R40, R225). -/
def programFits (bytes : List Byte) : Bool :=
  decide (bytes.length ≤ Machine.memSize - Machine.programStart)

end Sys2Proof
end

