-- ==== Sys2Proof/Decode.lean ====
section
/-! DEFINITION. The decoder block (spec/40_step_and_dispatch.md R73, R75, R76), total on every word and on
every list of bytes, and the encoder written from the layouts of spec/30_encoding.md R52 and R55. -/

namespace Sys2Proof

/-! ## The decoder's field wires (R51, R75) -/

/-- `t = w[15:12]`, the primary opcode. -/
def fieldT (w : Word) : Nibble := w.extractLsb' 12 4
/-- `x = w[11:8]`. -/
def fieldX (w : Word) : Reg := w.extractLsb' 8 4
/-- `y = w[7:4]`. -/
def fieldY (w : Word) : Reg := w.extractLsb' 4 4
/-- `n = w[3:0]`. -/
def fieldN (w : Word) : Nibble := w.extractLsb' 0 4
/-- `nn = w[7:0]`. -/
def fieldNN (w : Word) : Byte := w.extractLsb' 0 8
/-- `nnn = w[11:0]`. -/
def fieldNNN (w : Word) : Addr12 := w.extractLsb' 0 12

/-! ## The decision procedure of R76 -/

/-- Group 0 selects on `nnn` (R54, R76). -/
def decodeGroup0 (w : Word) : Option Instr :=
  match fieldNNN w with
  | 0x0E0#12 => some .cls
  | 0x0EE#12 => some .ret
  | _ => none

/-- Group 8 selects on `n`: nine legal values (R54, R76). -/
def decodeGroup8 (w : Word) : Option Instr :=
  match fieldN w with
  | 0x0#4 => some (.ldReg (fieldX w) (fieldY w))
  | 0x1#4 => some (.or (fieldX w) (fieldY w))
  | 0x2#4 => some (.and (fieldX w) (fieldY w))
  | 0x3#4 => some (.xor (fieldX w) (fieldY w))
  | 0x4#4 => some (.addReg (fieldX w) (fieldY w))
  | 0x5#4 => some (.sub (fieldX w) (fieldY w))
  | 0x6#4 => some (.shr (fieldX w) (fieldY w))
  | 0x7#4 => some (.subn (fieldX w) (fieldY w))
  | 0xE#4 => some (.shl (fieldX w) (fieldY w))
  | _ => none

/-- Group E selects on `nn` (R54, R76). -/
def decodeGroupE (w : Word) : Option Instr :=
  match fieldNN w with
  | 0x9E#8 => some (.skp (fieldX w))
  | 0xA1#8 => some (.sknp (fieldX w))
  | _ => none

/-- Group F selects on `nn` (R54, R76). -/
def decodeGroupF (w : Word) : Option Instr :=
  match fieldNN w with
  | 0x07#8 => some (.ldVxDt (fieldX w))
  | 0x0A#8 => some (.ldVxK (fieldX w))
  | 0x15#8 => some (.ldDtVx (fieldX w))
  | 0x18#8 => some (.ldStVx (fieldX w))
  | 0x1E#8 => some (.addI (fieldX w))
  | 0x29#8 => some (.ldF (fieldX w))
  | 0x33#8 => some (.ldB (fieldX w))
  | 0x55#8 => some (.ldMemVx (fieldX w))
  | 0x65#8 => some (.ldVxMem (fieldX w))
  | _ => none

/-- The decoder: `none` is the block's `valid` = 0 (R75, R76). -/
def decode (w : Word) : Option Instr :=
  match fieldT w with
  | 0x0#4 => decodeGroup0 w
  | 0x1#4 => some (.jp (fieldNNN w))
  | 0x2#4 => some (.call (fieldNNN w))
  | 0x3#4 => some (.seImm (fieldX w) (fieldNN w))
  | 0x4#4 => some (.sneImm (fieldX w) (fieldNN w))
  | 0x5#4 => if fieldN w = 0 then some (.seReg (fieldX w) (fieldY w)) else none
  | 0x6#4 => some (.ldImm (fieldX w) (fieldNN w))
  | 0x7#4 => some (.addImm (fieldX w) (fieldNN w))
  | 0x8#4 => decodeGroup8 w
  | 0x9#4 => if fieldN w = 0 then some (.sneReg (fieldX w) (fieldY w)) else none
  | 0xA#4 => some (.ldI (fieldNNN w))
  | 0xB#4 => some (.ldIV0 (fieldNNN w))
  | 0xC#4 => some (.rnd (fieldX w) (fieldNN w))
  | 0xD#4 => some (.drw (fieldX w) (fieldY w) (fieldN w))
  | 0xE#4 => decodeGroupE w
  | 0xF#4 => decodeGroupF w
  | _ => none

/-! ## From bytes -/

/-- Why a list of bytes gives no instruction. -/
inductive DecodeError where
  /-- Fewer than two bytes are left: an instruction is exactly 16 bits (R50). -/
  | truncated
  /-- The word matches no row of the opcode map (R57, R73). -/
  | undecodable (w : Word)
  deriving DecidableEq, Repr

/-- The word two fetched bytes make: `hi ++ lo`, the byte at the lower address high (R32). -/
def wordOfBytes (hi lo : Byte) : Word := hi ++ lo

/-- The instruction at the head of a list of bytes, and the bytes after it: total, rejecting by name. -/
def decodeBytes : List Byte → Except DecodeError (Instr × List Byte)
  | hi :: lo :: rest =>
    match decode (wordOfBytes hi lo) with
    | some i => .ok (i, rest)
    | none => .error (.undecodable (wordOfBytes hi lo))
  | _ => .error .truncated

/-- The high byte of a word, which stands at the lower address (R32, R50). -/
def hiByte (w : Word) : Byte := w.extractLsb' 8 8
/-- The low byte of a word, which stands at the higher address (R32, R50). -/
def loByte (w : Word) : Byte := w.extractLsb' 0 8

/-- The word of a table row given as a number, the bits above `nbits` zero. -/
def tableWord (nbits w : Nat) : Word := BitVec.ofNat 16 (w % 2 ^ nbits)

/-- The instruction the decoder reads from the bytes of a table word, laid out as memory holds them. -/
def decodeTableWord (nbits w : Nat) : Option Instr :=
  match decodeBytes [hiByte (tableWord nbits w), loByte (tableWord nbits w)] with
  | .ok (i, _) => some i
  | .error _ => none

/-! ## The encoder, from the six layouts of R52 -/

/-- Format A: `t nnn`. -/
def wordA (t : Nibble) (nnn : Addr12) : Word := t ++ nnn
/-- Format XI: `t x nn`; format X is the same layout with `nn` fixed. -/
def wordXI (t : Nibble) (x : Reg) (nn : Byte) : Word := t ++ x ++ nn
/-- Format XY: `t x y n` with `n` fixed; format XYN is the same layout with `n` free. -/
def wordXY (t : Nibble) (x y : Reg) (n : Nibble) : Word := t ++ x ++ y ++ n

/-- The word of an instruction (R52, R55). -/
def encode : Instr → Word
  | .cls => 0x00E0
  | .ret => 0x00EE
  | .jp a => wordA 0x1 a
  | .call a => wordA 0x2 a
  | .seImm x v => wordXI 0x3 x v
  | .sneImm x v => wordXI 0x4 x v
  | .seReg x y => wordXY 0x5 x y 0x0
  | .ldImm x v => wordXI 0x6 x v
  | .addImm x v => wordXI 0x7 x v
  | .ldReg x y => wordXY 0x8 x y 0x0
  | .or x y => wordXY 0x8 x y 0x1
  | .and x y => wordXY 0x8 x y 0x2
  | .xor x y => wordXY 0x8 x y 0x3
  | .addReg x y => wordXY 0x8 x y 0x4
  | .sub x y => wordXY 0x8 x y 0x5
  | .shr x y => wordXY 0x8 x y 0x6
  | .subn x y => wordXY 0x8 x y 0x7
  | .shl x y => wordXY 0x8 x y 0xE
  | .sneReg x y => wordXY 0x9 x y 0x0
  | .ldI a => wordA 0xA a
  | .ldIV0 a => wordA 0xB a
  | .rnd x v => wordXI 0xC x v
  | .drw x y n => wordXY 0xD x y n
  | .skp x => wordXI 0xE x 0x9E
  | .sknp x => wordXI 0xE x 0xA1
  | .ldVxDt x => wordXI 0xF x 0x07
  | .ldVxK x => wordXI 0xF x 0x0A
  | .ldDtVx x => wordXI 0xF x 0x15
  | .ldStVx x => wordXI 0xF x 0x18
  | .addI x => wordXI 0xF x 0x1E
  | .ldF x => wordXI 0xF x 0x29
  | .ldB x => wordXI 0xF x 0x33
  | .ldMemVx x => wordXI 0xF x 0x55
  | .ldVxMem x => wordXI 0xF x 0x65

/-! ## The opcode map of R55 as data -/

/-- A row of the opcode map: the word `w` selects it iff `w & mask = bits` (R55). -/
structure OpcodeRow where
  number : Nat
  bits : Word
  mask : Word
  deriving DecidableEq, Repr

/-- Whether a word selects a row (R55). -/
def OpcodeRow.selects (r : OpcodeRow) (w : Word) : Bool := w &&& r.mask == r.bits

/-- Rows 1 to 9: groups 0 to 7. -/
def opcodeRowsLow : List OpcodeRow :=
  [ ⟨1, 0x00E0, 0xFFFF⟩, ⟨2, 0x00EE, 0xFFFF⟩, ⟨3, 0x1000, 0xF000⟩, ⟨4, 0x2000, 0xF000⟩, ⟨5, 0x3000, 0xF000⟩,
    ⟨6, 0x4000, 0xF000⟩, ⟨7, 0x5000, 0xF00F⟩, ⟨8, 0x6000, 0xF000⟩, ⟨9, 0x7000, 0xF000⟩ ]

/-- Rows 10 to 18: group 8. -/
def opcodeRowsGroup8 : List OpcodeRow :=
  [ ⟨10, 0x8000, 0xF00F⟩, ⟨11, 0x8001, 0xF00F⟩, ⟨12, 0x8002, 0xF00F⟩, ⟨13, 0x8003, 0xF00F⟩,
    ⟨14, 0x8004, 0xF00F⟩, ⟨15, 0x8005, 0xF00F⟩, ⟨16, 0x8006, 0xF00F⟩, ⟨17, 0x8007, 0xF00F⟩, ⟨18, 0x800E, 0xF00F⟩ ]

/-- Rows 19 to 25: groups 9 to E. -/
def opcodeRowsMid : List OpcodeRow :=
  [ ⟨19, 0x9000, 0xF00F⟩, ⟨20, 0xA000, 0xF000⟩, ⟨21, 0xB000, 0xF000⟩, ⟨22, 0xC000, 0xF000⟩, ⟨23, 0xD000, 0xF000⟩,
    ⟨24, 0xE09E, 0xF0FF⟩, ⟨25, 0xE0A1, 0xF0FF⟩ ]

/-- Rows 26 to 34: group F. -/
def opcodeRowsGroupF : List OpcodeRow :=
  [ ⟨26, 0xF007, 0xF0FF⟩, ⟨27, 0xF00A, 0xF0FF⟩, ⟨28, 0xF015, 0xF0FF⟩, ⟨29, 0xF018, 0xF0FF⟩, ⟨30, 0xF01E, 0xF0FF⟩,
    ⟨31, 0xF029, 0xF0FF⟩, ⟨32, 0xF033, 0xF0FF⟩, ⟨33, 0xF055, 0xF0FF⟩, ⟨34, 0xF065, 0xF0FF⟩ ]

/-- The complete opcode map, rows 1 to 34 (R55). -/
def opcodeRows : List OpcodeRow := opcodeRowsLow ++ opcodeRowsGroup8 ++ opcodeRowsMid ++ opcodeRowsGroupF

end Sys2Proof
end

