-- ==== Sys2Proof/Machine/Fetch.lean ====
section
/-! DEFINITION. The fetch and decode phases (spec/40_step_and_dispatch.md R72, R73) and placing a word where the next
fetch reads it. -/

namespace Sys2Proof.Machine

/-- The fetch phase: both addresses are checked before the bytes are combined (R35, R72). -/
def State.fetch (s : State) : Except Fault Word :=
  match firstOutside s.pc.toNat 2 with
  | some a => .error (.outOfBounds a)
  | none => .ok (wordOfBytes (s.readByte s.pc.toNat) (s.readByte (s.pc.toNat + 1)))

/-- Fetch then decode at the current `pc` (R72, R73, R81). -/
def State.fetchDecode (s : State) : Except Fault Instr :=
  match s.fetch with
  | .error e => .error e
  | .ok w =>
    match decode w with
    | some i => .ok i
    | none => .error (.undecodable w)

/-- Whether a fetch at `pc` is within memory: `pc <= 0xFFE` (R35). -/
def State.canFetch (s : State) : Bool := decide (s.pc.toNat + 2 ≤ memSize)

/-- The state with the word `w` stored at `pc`, high byte first, so that the next step fetches it
(log entry 10): a `pc` no fetch can read from is first put at the program start, and a key-wait is
ended, since a wait tick fetches nothing. -/
def State.placeWord (s : State) (w : Word) : State :=
  let pc : Word := if s.canFetch then s.pc else BitVec.ofNat 16 programStart
  { s with
    pc := pc
    wait := .running
    mem := Memory.writeBytes s.params.fontBase s.mem pc.toNat [hiByte w, loByte w] }

end Sys2Proof.Machine
end

