-- ==== Sys2Proof/Machine/Step.lean ====
section
/-! DEFINITION. One `tick` (spec/40_step_and_dispatch.md R70, R71). -/

namespace Sys2Proof.Machine

/-- A tick with the snapshot `s.key`. While the machine waits for a key it does the wait check alone;
else it fetches, decodes, executes, and then steps the timers. An error ends it with no state
changed: the outcome then carries the error alone (R70, R71, R224). -/
def step (s : State) : Host.Outcome State Fault Refusal :=
  match s.wait with
  | .awaitingKey r => .next (s.waitCheck r s.key).consumeKey
  | .running =>
    match s.fetchDecode with
    | .error e => raise e
    | .ok i =>
      match exec i s with
      | .next t => .next t.timersStep.consumeKey
      | .fault e => .fault e
      | .refused r => .refused r

/-- `s` with the instruction of a table word stored where `step` fetches its next instruction. -/
def State.withFetchWord (s : State) (nbits w : Nat) : State := s.placeWord (tableWord nbits w)

end Sys2Proof.Machine
end

