-- ==== Sys2Proof/Machine/HostOps.lean ====
section
/-! DEFINITION. The operations the host applies between and around ticks, and its read-only views
(spec/60_exceptions.md R236 to R239; spec/20_memory.md R40, R41; spec/70_reset_and_hazards.md R250). -/

namespace Sys2Proof.Machine

/-- The numeric code of an error (R220). -/
def Fault.code : Fault → Nat
  | .outOfBounds _ => 1
  | .undecodable _ => 2
  | .stackOverflow => 3
  | .stackUnderflow => 4
  | .capacityExceeded => 5

/-- What `tick` and `load_program` return (R236). -/
inductive HostResult where
  | ok
  | error (e : Fault)
  /-- Only for a step the model refuses; `step` never does. -/
  | refused (r : Refusal)
  deriving DecidableEq, Repr

/-- `reset`, at any time between operations: every piece of machine state at its reset value, a loaded
program erased; the configuration and the host's own keypad input stay (R250). -/
def hostReset (s : State) : State :=
  { State.resetWith s.params with keyFeed := s.keyFeed, keyCount := s.keyCount }

/-- `load_program(bytes)`: writes `MEM` only, from the program start, or nothing when the program is too
long (R40, R225). -/
def hostLoadProgram (bytes : List Byte) (s : State) : State × HostResult :=
  if programFits bytes then
    (s.setMem (Memory.writeBytes s.params.fontBase s.mem programStart bytes), .ok)
  else (s, .error .capacityExceeded)

/-- `tick(KEY)`: one step with the snapshot `keys`; on an error all state is as it was (R70, R224). -/
def hostTick (keys : Keypad) (s : State) : State × HostResult :=
  match step (s.presentKey keys) with
  | .next t => (t, .ok)
  | .fault e => (s, .error e)
  | .refused r => (s, .refused r)

/-- `get_opcode`: the operation at `pc`, or the fetch or decode error; `WAIT` is ignored and nothing
changes (R81, R238). -/
def hostGetOpcode (s : State) : Except Fault Instr := s.fetchDecode

/-- The memory view: `MEM[a]` for `a` in 0..4095 (R41). -/
def hostMemView (s : State) (a : Nat) : Option Byte := if a < memSize then some (s.readByte a) else none

/-- The framebuffer view: `FB[k]` for `k` in 0..2047 (R237). -/
def hostFbView (s : State) (k : Nat) : Option Bool :=
  if k < fbWidth * fbHeight then some (pixel s.fb k) else none

/-- The host operations that can change state (R70, R236). -/
inductive HostOp where
  | reset
  | loadProgram (bytes : List Byte)
  | tick (keys : Keypad)
  deriving DecidableEq, Repr

/-- One host operation; operations never overlap (R236). -/
def applyHostOp (op : HostOp) (s : State) : State × HostResult :=
  match op with
  | .reset => (hostReset s, .ok)
  | .loadProgram bytes => hostLoadProgram bytes s
  | .tick keys => hostTick keys s

/-- The host operations of a session, in the order issued (R42), with the results it saw. -/
def applyHostOps : List HostOp → State → State × List HostResult
  | [], s => (s, [])
  | op :: ops, s =>
    let done := applyHostOps ops (applyHostOp op s).1
    (done.1, (applyHostOp op s).2 :: done.2)

end Sys2Proof.Machine
end

