-- ==== Sys2Proof/Safety.lean ====
section
/-! DEFINITION. The terms claims are written in: the parts of the state and what it is to leave a part
unchanged, the access matrix of spec/10_state.md R27, and the machine's invariant (R26). -/

namespace Sys2Proof.Machine

/-! ## Parts of the state -/

/-- The parts of the state: the columns of R27, `pc`, and the model's own fields. -/
inductive Part where
  | reg (r : Reg)
  | pc
  | index
  | stack
  | dt
  | st
  | fb
  | wait
  | rng
  | mem
  | params
  | keys
  deriving DecidableEq, Repr

/-- `s` and `t` hold the same value in a part. Memory is compared byte by byte, through its read. -/
def Part.Same (p : Part) (s t : State) : Prop :=
  match p with
  | .reg r => t.readReg r = s.readReg r
  | .pc => t.pc = s.pc
  | .index => t.i = s.i
  | .stack => t.stack = s.stack ∧ t.sp = s.sp
  | .dt => t.dt = s.dt
  | .st => t.st = s.st
  | .fb => t.fb = s.fb
  | .wait => t.wait = s.wait
  | .rng => t.rng = s.rng
  | .mem => ∀ a, t.readByte a = s.readByte a
  | .params => t.params = s.params
  | .keys => t.keyFeed = s.keyFeed ∧ t.keyCount = s.keyCount

/-- From `s` to `t` nothing changes outside the parts named: the frame of an instruction. -/
def OnlyChanges (s t : State) (parts : List Part) : Prop := ∀ p, p ∉ parts → p.Same s t

/-- Every byte of memory outside `addr .. addr+n-1` reads as before. -/
def OnlyStores (s t : State) (addr n : Nat) : Prop :=
  ∀ a, ¬ (addr ≤ a ∧ a < addr + n) → t.readByte a = s.readByte a

/-- The registers `V[0]` to `V[x]` of a block transfer (R146). -/
def blockParts (x : Reg) : List Part := (List.range (blockLength x)).map (fun k => Part.reg (BitVec.ofNat 4 k))

/-! ## The access matrix of R27 -/

/-- The parts an instruction may write: the `w` entries of R27, with `pc`. -/
def writtenParts (p : Params) : Instr → List Part
  | .cls => [.pc, .fb]
  | .ret => [.pc, .stack]
  | .jp _ => [.pc]
  | .call _ => [.pc, .stack]
  | .seImm _ _ => [.pc]
  | .sneImm _ _ => [.pc]
  | .seReg _ _ => [.pc]
  | .sneReg _ _ => [.pc]
  | .ldImm x _ => [.pc, .reg x]
  | .addImm x _ => [.pc, .reg x]
  | .ldReg x _ => [.pc, .reg x]
  | .or x _ => [.pc, .reg x]
  | .and x _ => [.pc, .reg x]
  | .xor x _ => [.pc, .reg x]
  | .addReg x _ => [.pc, .reg x, .reg flagReg]
  | .sub x _ => [.pc, .reg x, .reg flagReg]
  | .shr x _ => [.pc, .reg x, .reg flagReg]
  | .subn x _ => [.pc, .reg x, .reg flagReg]
  | .shl x _ => [.pc, .reg x, .reg flagReg]
  | .ldI _ => [.pc, .index]
  | .ldIV0 _ =>
    match p.bnnnTarget with
    | .index => [.pc, .index]
    | .pc => [.pc]
  | .rnd x _ => [.pc, .reg x, .rng]
  | .drw _ _ _ => [.pc, .reg flagReg, .fb]
  | .skp _ => [.pc]
  | .sknp _ => [.pc]
  | .ldVxDt x => [.pc, .reg x]
  | .ldVxK _ => [.pc, .wait]
  | .ldDtVx _ => [.pc, .dt]
  | .ldStVx _ => [.pc, .st]
  | .addI _ => [.pc, .index]
  | .ldF _ => [.pc, .index]
  | .ldB _ => [.pc, .mem]
  | .ldMemVx _ => [.pc, .mem]
  | .ldVxMem x => .pc :: blockParts x

/-- The parts an instruction may read: the `r` entries of R27, with `pc` and the parameters. -/
def readParts (p : Params) : Instr → List Part
  | .cls => [.pc, .params]
  | .ret => [.pc, .params, .stack]
  | .jp _ => [.pc, .params]
  | .call _ => [.pc, .params, .stack]
  | .seImm x _ => [.pc, .params, .reg x]
  | .sneImm x _ => [.pc, .params, .reg x]
  | .seReg x y => [.pc, .params, .reg x, .reg y]
  | .sneReg x y => [.pc, .params, .reg x, .reg y]
  | .ldImm _ _ => [.pc, .params]
  | .addImm x _ => [.pc, .params, .reg x]
  | .ldReg _ y => [.pc, .params, .reg y]
  | .or x y => [.pc, .params, .reg x, .reg y]
  | .and x y => [.pc, .params, .reg x, .reg y]
  | .xor x y => [.pc, .params, .reg x, .reg y]
  | .addReg x y => [.pc, .params, .reg x, .reg y]
  | .sub x y => [.pc, .params, .reg x, .reg y]
  | .shr x y =>
    match p.shiftSource with
    | .x => [.pc, .params, .reg x]
    | .y => [.pc, .params, .reg y]
  | .subn x y => [.pc, .params, .reg x, .reg y]
  | .shl x y =>
    match p.shiftSource with
    | .x => [.pc, .params, .reg x]
    | .y => [.pc, .params, .reg y]
  | .ldI _ => [.pc, .params]
  | .ldIV0 _ => [.pc, .params, .reg 0]
  | .rnd _ _ => [.pc, .params, .rng]
  | .drw x y _ => [.pc, .params, .reg x, .reg y, .index, .mem, .fb]
  | .skp x => [.pc, .params, .reg x, .keys]
  | .sknp x => [.pc, .params, .reg x, .keys]
  | .ldVxDt _ => [.pc, .params, .dt]
  | .ldVxK _ => [.pc, .params]
  | .ldDtVx x => [.pc, .params, .reg x]
  | .ldStVx x => [.pc, .params, .reg x]
  | .addI x => [.pc, .params, .reg x, .index]
  | .ldF x => [.pc, .params, .reg x]
  | .ldB x => [.pc, .params, .reg x, .index]
  | .ldMemVx x => .pc :: .params :: .index :: blockParts x
  | .ldVxMem _ => [.pc, .params, .index, .mem]

/-! ## The sprite's footprint (R171, R172, R175) -/

/-- The sprite pixel in column `c`, row `r` lands on framebuffer index `k`, by the equations of R172:
under `Wrap` each coordinate is reduced; under `Clip` the origin is, and overhang lands nowhere. -/
def Lands (edge : DrawEdge) (x0 y0 : Byte) (c r k : Nat) : Prop :=
  match edge with
  | .wrap => k = (y0.toNat + r) % 32 * 64 + (x0.toNat + c) % 64
  | .clip => x0.toNat % 64 + c ≤ 63 ∧ y0.toNat % 32 + r ≤ 31 ∧ k = (y0.toNat % 32 + r) * 64 + (x0.toNat % 64 + c)

/-- Pixel `k` is under a 1 bit of the sprite: the `mask` of R176. Bit `7 - c` of row `r` is column `c`
(R171). -/
def Footprint (edge : DrawEdge) (rows : List Byte) (x0 y0 : Byte) (k : Nat) : Prop :=
  ∃ r c, c < 8 ∧ (∃ row, rows[r]? = some row ∧ row.getLsbD (7 - c) = true) ∧ Lands edge x0 y0 c r k

/-- The sprite rows `DRW` reads: `MEM[I] .. MEM[I+n-1]` (R175). -/
def spriteRows (s : State) (n : Nibble) : List Byte := (List.range n.toNat).map (fun r => s.readByte (s.i.toNat + r))

/-! ## The invariant (R26) -/

/-- The largest `pc` a successful step leaves: `0x1002` (R13), or `0x10FE` where `Bnnn` jumps (R141). -/
def pcLimit (p : Params) : Nat :=
  match p.bnnnTarget with
  | .index => 0x1002
  | .pc => 0x10FE

/-- What holds in every state the host operations reach from reset (R26): the configuration is one the
spec allows, memory keeps its canonical form, the stack keeps its capacity and its depth counter stays
within it, every stacked address is one a `CALL` was fetched from, and `pc` stays below its limit. -/
structure State.Inv (s : State) : Prop where
  params_ok : s.params.wellFormed = true
  mem_ok : Memory.wf s.params.fontBase s.mem
  stack_length : s.stack.length = s.params.stackDepth
  sp_le : s.sp ≤ s.params.stackDepth
  stack_fetched : ∀ w ∈ s.stack, w.toNat ≤ 0xFFE
  pc_le : s.pc.toNat ≤ pcLimit s.params

end Sys2Proof.Machine
end

