-- ==== Sys2Proof/Laws/State.lean ====
section
/-! SUPPORT. One lemma per field per update of the state, so that no proof unfolds a record update. -/

namespace Sys2Proof.Machine

variable (s : State)

/-! ## `State.setIndex` -/

@[simp] theorem setIndex_v (w : Word) : (s.setIndex w).v = s.v := rfl
@[simp] theorem setIndex_pc (w : Word) : (s.setIndex w).pc = s.pc := rfl
@[simp] theorem setIndex_i (w : Word) : (s.setIndex w).i = w := rfl
@[simp] theorem setIndex_stack (w : Word) : (s.setIndex w).stack = s.stack := rfl
@[simp] theorem setIndex_sp (w : Word) : (s.setIndex w).sp = s.sp := rfl
@[simp] theorem setIndex_dt (w : Word) : (s.setIndex w).dt = s.dt := rfl
@[simp] theorem setIndex_st (w : Word) : (s.setIndex w).st = s.st := rfl
@[simp] theorem setIndex_fb (w : Word) : (s.setIndex w).fb = s.fb := rfl
@[simp] theorem setIndex_wait (w : Word) : (s.setIndex w).wait = s.wait := rfl
@[simp] theorem setIndex_rng (w : Word) : (s.setIndex w).rng = s.rng := rfl
@[simp] theorem setIndex_mem (w : Word) : (s.setIndex w).mem = s.mem := rfl
@[simp] theorem setIndex_params (w : Word) : (s.setIndex w).params = s.params := rfl
@[simp] theorem setIndex_keyFeed (w : Word) : (s.setIndex w).keyFeed = s.keyFeed := rfl
@[simp] theorem setIndex_keyCount (w : Word) : (s.setIndex w).keyCount = s.keyCount := rfl
@[simp] theorem readReg_setIndex (w : Word) (r : Reg) : (s.setIndex w).readReg r = s.readReg r := rfl
@[simp] theorem readByte_setIndex (w : Word) (a : Nat) : (s.setIndex w).readByte a = s.readByte a := rfl
@[simp] theorem key_setIndex (w : Word) : (s.setIndex w).key = s.key := rfl

/-! ## `State.setDt` -/

@[simp] theorem setDt_v (b : Byte) : (s.setDt b).v = s.v := rfl
@[simp] theorem setDt_pc (b : Byte) : (s.setDt b).pc = s.pc := rfl
@[simp] theorem setDt_i (b : Byte) : (s.setDt b).i = s.i := rfl
@[simp] theorem setDt_stack (b : Byte) : (s.setDt b).stack = s.stack := rfl
@[simp] theorem setDt_sp (b : Byte) : (s.setDt b).sp = s.sp := rfl
@[simp] theorem setDt_dt (b : Byte) : (s.setDt b).dt = b := rfl
@[simp] theorem setDt_st (b : Byte) : (s.setDt b).st = s.st := rfl
@[simp] theorem setDt_fb (b : Byte) : (s.setDt b).fb = s.fb := rfl
@[simp] theorem setDt_wait (b : Byte) : (s.setDt b).wait = s.wait := rfl
@[simp] theorem setDt_rng (b : Byte) : (s.setDt b).rng = s.rng := rfl
@[simp] theorem setDt_mem (b : Byte) : (s.setDt b).mem = s.mem := rfl
@[simp] theorem setDt_params (b : Byte) : (s.setDt b).params = s.params := rfl
@[simp] theorem setDt_keyFeed (b : Byte) : (s.setDt b).keyFeed = s.keyFeed := rfl
@[simp] theorem setDt_keyCount (b : Byte) : (s.setDt b).keyCount = s.keyCount := rfl
@[simp] theorem readReg_setDt (b : Byte) (r : Reg) : (s.setDt b).readReg r = s.readReg r := rfl
@[simp] theorem readByte_setDt (b : Byte) (a : Nat) : (s.setDt b).readByte a = s.readByte a := rfl
@[simp] theorem key_setDt (b : Byte) : (s.setDt b).key = s.key := rfl

/-! ## `State.setSt` -/

@[simp] theorem setSt_v (b : Byte) : (s.setSt b).v = s.v := rfl
@[simp] theorem setSt_pc (b : Byte) : (s.setSt b).pc = s.pc := rfl
@[simp] theorem setSt_i (b : Byte) : (s.setSt b).i = s.i := rfl
@[simp] theorem setSt_stack (b : Byte) : (s.setSt b).stack = s.stack := rfl
@[simp] theorem setSt_sp (b : Byte) : (s.setSt b).sp = s.sp := rfl
@[simp] theorem setSt_dt (b : Byte) : (s.setSt b).dt = s.dt := rfl
@[simp] theorem setSt_st (b : Byte) : (s.setSt b).st = b := rfl
@[simp] theorem setSt_fb (b : Byte) : (s.setSt b).fb = s.fb := rfl
@[simp] theorem setSt_wait (b : Byte) : (s.setSt b).wait = s.wait := rfl
@[simp] theorem setSt_rng (b : Byte) : (s.setSt b).rng = s.rng := rfl
@[simp] theorem setSt_mem (b : Byte) : (s.setSt b).mem = s.mem := rfl
@[simp] theorem setSt_params (b : Byte) : (s.setSt b).params = s.params := rfl
@[simp] theorem setSt_keyFeed (b : Byte) : (s.setSt b).keyFeed = s.keyFeed := rfl
@[simp] theorem setSt_keyCount (b : Byte) : (s.setSt b).keyCount = s.keyCount := rfl
@[simp] theorem readReg_setSt (b : Byte) (r : Reg) : (s.setSt b).readReg r = s.readReg r := rfl
@[simp] theorem readByte_setSt (b : Byte) (a : Nat) : (s.setSt b).readByte a = s.readByte a := rfl
@[simp] theorem key_setSt (b : Byte) : (s.setSt b).key = s.key := rfl

/-! ## `State.setFb` -/

@[simp] theorem setFb_v (f : FrameBuffer) : (s.setFb f).v = s.v := rfl
@[simp] theorem setFb_pc (f : FrameBuffer) : (s.setFb f).pc = s.pc := rfl
@[simp] theorem setFb_i (f : FrameBuffer) : (s.setFb f).i = s.i := rfl
@[simp] theorem setFb_stack (f : FrameBuffer) : (s.setFb f).stack = s.stack := rfl
@[simp] theorem setFb_sp (f : FrameBuffer) : (s.setFb f).sp = s.sp := rfl
@[simp] theorem setFb_dt (f : FrameBuffer) : (s.setFb f).dt = s.dt := rfl
@[simp] theorem setFb_st (f : FrameBuffer) : (s.setFb f).st = s.st := rfl
@[simp] theorem setFb_fb (f : FrameBuffer) : (s.setFb f).fb = f := rfl
@[simp] theorem setFb_wait (f : FrameBuffer) : (s.setFb f).wait = s.wait := rfl
@[simp] theorem setFb_rng (f : FrameBuffer) : (s.setFb f).rng = s.rng := rfl
@[simp] theorem setFb_mem (f : FrameBuffer) : (s.setFb f).mem = s.mem := rfl
@[simp] theorem setFb_params (f : FrameBuffer) : (s.setFb f).params = s.params := rfl
@[simp] theorem setFb_keyFeed (f : FrameBuffer) : (s.setFb f).keyFeed = s.keyFeed := rfl
@[simp] theorem setFb_keyCount (f : FrameBuffer) : (s.setFb f).keyCount = s.keyCount := rfl
@[simp] theorem readReg_setFb (f : FrameBuffer) (r : Reg) : (s.setFb f).readReg r = s.readReg r := rfl
@[simp] theorem readByte_setFb (f : FrameBuffer) (a : Nat) : (s.setFb f).readByte a = s.readByte a := rfl
@[simp] theorem key_setFb (f : FrameBuffer) : (s.setFb f).key = s.key := rfl

/-! ## `State.setWait` -/

@[simp] theorem setWait_v (w : Wait) : (s.setWait w).v = s.v := rfl
@[simp] theorem setWait_pc (w : Wait) : (s.setWait w).pc = s.pc := rfl
@[simp] theorem setWait_i (w : Wait) : (s.setWait w).i = s.i := rfl
@[simp] theorem setWait_stack (w : Wait) : (s.setWait w).stack = s.stack := rfl
@[simp] theorem setWait_sp (w : Wait) : (s.setWait w).sp = s.sp := rfl
@[simp] theorem setWait_dt (w : Wait) : (s.setWait w).dt = s.dt := rfl
@[simp] theorem setWait_st (w : Wait) : (s.setWait w).st = s.st := rfl
@[simp] theorem setWait_fb (w : Wait) : (s.setWait w).fb = s.fb := rfl
@[simp] theorem setWait_wait (w : Wait) : (s.setWait w).wait = w := rfl
@[simp] theorem setWait_rng (w : Wait) : (s.setWait w).rng = s.rng := rfl
@[simp] theorem setWait_mem (w : Wait) : (s.setWait w).mem = s.mem := rfl
@[simp] theorem setWait_params (w : Wait) : (s.setWait w).params = s.params := rfl
@[simp] theorem setWait_keyFeed (w : Wait) : (s.setWait w).keyFeed = s.keyFeed := rfl
@[simp] theorem setWait_keyCount (w : Wait) : (s.setWait w).keyCount = s.keyCount := rfl
@[simp] theorem readReg_setWait (w : Wait) (r : Reg) : (s.setWait w).readReg r = s.readReg r := rfl
@[simp] theorem readByte_setWait (w : Wait) (a : Nat) : (s.setWait w).readByte a = s.readByte a := rfl
@[simp] theorem key_setWait (w : Wait) : (s.setWait w).key = s.key := rfl

/-! ## `State.setRng` -/

@[simp] theorem setRng_v (b : Byte) : (s.setRng b).v = s.v := rfl
@[simp] theorem setRng_pc (b : Byte) : (s.setRng b).pc = s.pc := rfl
@[simp] theorem setRng_i (b : Byte) : (s.setRng b).i = s.i := rfl
@[simp] theorem setRng_stack (b : Byte) : (s.setRng b).stack = s.stack := rfl
@[simp] theorem setRng_sp (b : Byte) : (s.setRng b).sp = s.sp := rfl
@[simp] theorem setRng_dt (b : Byte) : (s.setRng b).dt = s.dt := rfl
@[simp] theorem setRng_st (b : Byte) : (s.setRng b).st = s.st := rfl
@[simp] theorem setRng_fb (b : Byte) : (s.setRng b).fb = s.fb := rfl
@[simp] theorem setRng_wait (b : Byte) : (s.setRng b).wait = s.wait := rfl
@[simp] theorem setRng_rng (b : Byte) : (s.setRng b).rng = b := rfl
@[simp] theorem setRng_mem (b : Byte) : (s.setRng b).mem = s.mem := rfl
@[simp] theorem setRng_params (b : Byte) : (s.setRng b).params = s.params := rfl
@[simp] theorem setRng_keyFeed (b : Byte) : (s.setRng b).keyFeed = s.keyFeed := rfl
@[simp] theorem setRng_keyCount (b : Byte) : (s.setRng b).keyCount = s.keyCount := rfl
@[simp] theorem readReg_setRng (b : Byte) (r : Reg) : (s.setRng b).readReg r = s.readReg r := rfl
@[simp] theorem readByte_setRng (b : Byte) (a : Nat) : (s.setRng b).readByte a = s.readByte a := rfl
@[simp] theorem key_setRng (b : Byte) : (s.setRng b).key = s.key := rfl

/-! ## `State.setMem` -/

@[simp] theorem setMem_v (m : Memory) : (s.setMem m).v = s.v := rfl
@[simp] theorem setMem_pc (m : Memory) : (s.setMem m).pc = s.pc := rfl
@[simp] theorem setMem_i (m : Memory) : (s.setMem m).i = s.i := rfl
@[simp] theorem setMem_stack (m : Memory) : (s.setMem m).stack = s.stack := rfl
@[simp] theorem setMem_sp (m : Memory) : (s.setMem m).sp = s.sp := rfl
@[simp] theorem setMem_dt (m : Memory) : (s.setMem m).dt = s.dt := rfl
@[simp] theorem setMem_st (m : Memory) : (s.setMem m).st = s.st := rfl
@[simp] theorem setMem_fb (m : Memory) : (s.setMem m).fb = s.fb := rfl
@[simp] theorem setMem_wait (m : Memory) : (s.setMem m).wait = s.wait := rfl
@[simp] theorem setMem_rng (m : Memory) : (s.setMem m).rng = s.rng := rfl
@[simp] theorem setMem_mem (m : Memory) : (s.setMem m).mem = m := rfl
@[simp] theorem setMem_params (m : Memory) : (s.setMem m).params = s.params := rfl
@[simp] theorem setMem_keyFeed (m : Memory) : (s.setMem m).keyFeed = s.keyFeed := rfl
@[simp] theorem setMem_keyCount (m : Memory) : (s.setMem m).keyCount = s.keyCount := rfl
@[simp] theorem readReg_setMem (m : Memory) (r : Reg) : (s.setMem m).readReg r = s.readReg r := rfl
@[simp] theorem readByte_setMem (m : Memory) (a : Nat) :
    (s.setMem m).readByte a = Memory.read s.params.fontBase m a := rfl
@[simp] theorem key_setMem (m : Memory) : (s.setMem m).key = s.key := rfl

/-! ## `State.setStack` -/

@[simp] theorem setStack_v (l : List Word) (n : Nat) : (s.setStack l n).v = s.v := rfl
@[simp] theorem setStack_pc (l : List Word) (n : Nat) : (s.setStack l n).pc = s.pc := rfl
@[simp] theorem setStack_i (l : List Word) (n : Nat) : (s.setStack l n).i = s.i := rfl
@[simp] theorem setStack_stack (l : List Word) (n : Nat) : (s.setStack l n).stack = l := rfl
@[simp] theorem setStack_sp (l : List Word) (n : Nat) : (s.setStack l n).sp = n := rfl
@[simp] theorem setStack_dt (l : List Word) (n : Nat) : (s.setStack l n).dt = s.dt := rfl
@[simp] theorem setStack_st (l : List Word) (n : Nat) : (s.setStack l n).st = s.st := rfl
@[simp] theorem setStack_fb (l : List Word) (n : Nat) : (s.setStack l n).fb = s.fb := rfl
@[simp] theorem setStack_wait (l : List Word) (n : Nat) : (s.setStack l n).wait = s.wait := rfl
@[simp] theorem setStack_rng (l : List Word) (n : Nat) : (s.setStack l n).rng = s.rng := rfl
@[simp] theorem setStack_mem (l : List Word) (n : Nat) : (s.setStack l n).mem = s.mem := rfl
@[simp] theorem setStack_params (l : List Word) (n : Nat) : (s.setStack l n).params = s.params := rfl
@[simp] theorem setStack_keyFeed (l : List Word) (n : Nat) : (s.setStack l n).keyFeed = s.keyFeed := rfl
@[simp] theorem setStack_keyCount (l : List Word) (n : Nat) : (s.setStack l n).keyCount = s.keyCount := rfl
@[simp] theorem readReg_setStack (l : List Word) (n : Nat) (r : Reg) : (s.setStack l n).readReg r = s.readReg r := rfl
@[simp] theorem readByte_setStack (l : List Word) (n : Nat) (a : Nat) : (s.setStack l n).readByte a = s.readByte a := rfl
@[simp] theorem key_setStack (l : List Word) (n : Nat) : (s.setStack l n).key = s.key := rfl

/-! ## `State.advance` -/

@[simp] theorem advance_v : s.advance.v = s.v := rfl
@[simp] theorem advance_pc : s.advance.pc = s.pc + 2 := rfl
@[simp] theorem advance_i : s.advance.i = s.i := rfl
@[simp] theorem advance_stack : s.advance.stack = s.stack := rfl
@[simp] theorem advance_sp : s.advance.sp = s.sp := rfl
@[simp] theorem advance_dt : s.advance.dt = s.dt := rfl
@[simp] theorem advance_st : s.advance.st = s.st := rfl
@[simp] theorem advance_fb : s.advance.fb = s.fb := rfl
@[simp] theorem advance_wait : s.advance.wait = s.wait := rfl
@[simp] theorem advance_rng : s.advance.rng = s.rng := rfl
@[simp] theorem advance_mem : s.advance.mem = s.mem := rfl
@[simp] theorem advance_params : s.advance.params = s.params := rfl
@[simp] theorem advance_keyFeed : s.advance.keyFeed = s.keyFeed := rfl
@[simp] theorem advance_keyCount : s.advance.keyCount = s.keyCount := rfl
@[simp] theorem readReg_advance (r : Reg) : s.advance.readReg r = s.readReg r := rfl
@[simp] theorem readByte_advance (a : Nat) : s.advance.readByte a = s.readByte a := rfl
@[simp] theorem key_advance : s.advance.key = s.key := rfl

/-! ## `State.skipIf` -/

@[simp] theorem skipIf_v (c : Bool) : (s.skipIf c).v = s.v := rfl
@[simp] theorem skipIf_pc (c : Bool) : (s.skipIf c).pc = if c then s.pc + 4 else s.pc + 2 := rfl
@[simp] theorem skipIf_i (c : Bool) : (s.skipIf c).i = s.i := rfl
@[simp] theorem skipIf_stack (c : Bool) : (s.skipIf c).stack = s.stack := rfl
@[simp] theorem skipIf_sp (c : Bool) : (s.skipIf c).sp = s.sp := rfl
@[simp] theorem skipIf_dt (c : Bool) : (s.skipIf c).dt = s.dt := rfl
@[simp] theorem skipIf_st (c : Bool) : (s.skipIf c).st = s.st := rfl
@[simp] theorem skipIf_fb (c : Bool) : (s.skipIf c).fb = s.fb := rfl
@[simp] theorem skipIf_wait (c : Bool) : (s.skipIf c).wait = s.wait := rfl
@[simp] theorem skipIf_rng (c : Bool) : (s.skipIf c).rng = s.rng := rfl
@[simp] theorem skipIf_mem (c : Bool) : (s.skipIf c).mem = s.mem := rfl
@[simp] theorem skipIf_params (c : Bool) : (s.skipIf c).params = s.params := rfl
@[simp] theorem skipIf_keyFeed (c : Bool) : (s.skipIf c).keyFeed = s.keyFeed := rfl
@[simp] theorem skipIf_keyCount (c : Bool) : (s.skipIf c).keyCount = s.keyCount := rfl
@[simp] theorem readReg_skipIf (c : Bool) (r : Reg) : (s.skipIf c).readReg r = s.readReg r := rfl
@[simp] theorem readByte_skipIf (c : Bool) (a : Nat) : (s.skipIf c).readByte a = s.readByte a := rfl
@[simp] theorem key_skipIf (c : Bool) : (s.skipIf c).key = s.key := rfl

/-! ## `State.jump` -/

@[simp] theorem jump_v (w : Word) : (s.jump w).v = s.v := rfl
@[simp] theorem jump_pc (w : Word) : (s.jump w).pc = w := rfl
@[simp] theorem jump_i (w : Word) : (s.jump w).i = s.i := rfl
@[simp] theorem jump_stack (w : Word) : (s.jump w).stack = s.stack := rfl
@[simp] theorem jump_sp (w : Word) : (s.jump w).sp = s.sp := rfl
@[simp] theorem jump_dt (w : Word) : (s.jump w).dt = s.dt := rfl
@[simp] theorem jump_st (w : Word) : (s.jump w).st = s.st := rfl
@[simp] theorem jump_fb (w : Word) : (s.jump w).fb = s.fb := rfl
@[simp] theorem jump_wait (w : Word) : (s.jump w).wait = s.wait := rfl
@[simp] theorem jump_rng (w : Word) : (s.jump w).rng = s.rng := rfl
@[simp] theorem jump_mem (w : Word) : (s.jump w).mem = s.mem := rfl
@[simp] theorem jump_params (w : Word) : (s.jump w).params = s.params := rfl
@[simp] theorem jump_keyFeed (w : Word) : (s.jump w).keyFeed = s.keyFeed := rfl
@[simp] theorem jump_keyCount (w : Word) : (s.jump w).keyCount = s.keyCount := rfl
@[simp] theorem readReg_jump (w : Word) (r : Reg) : (s.jump w).readReg r = s.readReg r := rfl
@[simp] theorem readByte_jump (w : Word) (a : Nat) : (s.jump w).readByte a = s.readByte a := rfl
@[simp] theorem key_jump (w : Word) : (s.jump w).key = s.key := rfl

/-! ## `State.presentKey` -/

@[simp] theorem presentKey_v (k : Keypad) : (s.presentKey k).v = s.v := rfl
@[simp] theorem presentKey_pc (k : Keypad) : (s.presentKey k).pc = s.pc := rfl
@[simp] theorem presentKey_i (k : Keypad) : (s.presentKey k).i = s.i := rfl
@[simp] theorem presentKey_stack (k : Keypad) : (s.presentKey k).stack = s.stack := rfl
@[simp] theorem presentKey_sp (k : Keypad) : (s.presentKey k).sp = s.sp := rfl
@[simp] theorem presentKey_dt (k : Keypad) : (s.presentKey k).dt = s.dt := rfl
@[simp] theorem presentKey_st (k : Keypad) : (s.presentKey k).st = s.st := rfl
@[simp] theorem presentKey_fb (k : Keypad) : (s.presentKey k).fb = s.fb := rfl
@[simp] theorem presentKey_wait (k : Keypad) : (s.presentKey k).wait = s.wait := rfl
@[simp] theorem presentKey_rng (k : Keypad) : (s.presentKey k).rng = s.rng := rfl
@[simp] theorem presentKey_mem (k : Keypad) : (s.presentKey k).mem = s.mem := rfl
@[simp] theorem presentKey_params (k : Keypad) : (s.presentKey k).params = s.params := rfl
@[simp] theorem presentKey_keyFeed (k : Keypad) : (s.presentKey k).keyFeed = k :: s.keyFeed := rfl
@[simp] theorem presentKey_keyCount (k : Keypad) : (s.presentKey k).keyCount = s.keyCount := rfl
@[simp] theorem readReg_presentKey (k : Keypad) (r : Reg) : (s.presentKey k).readReg r = s.readReg r := rfl
@[simp] theorem readByte_presentKey (k : Keypad) (a : Nat) : (s.presentKey k).readByte a = s.readByte a := rfl
@[simp] theorem key_presentKey (k : Keypad) : (s.presentKey k).key = k := rfl

/-! ## `State.timersStep` -/

@[simp] theorem timersStep_v : s.timersStep.v = s.v := rfl
@[simp] theorem timersStep_pc : s.timersStep.pc = s.pc := rfl
@[simp] theorem timersStep_i : s.timersStep.i = s.i := rfl
@[simp] theorem timersStep_stack : s.timersStep.stack = s.stack := rfl
@[simp] theorem timersStep_sp : s.timersStep.sp = s.sp := rfl
@[simp] theorem timersStep_dt : s.timersStep.dt = countDown s.dt := rfl
@[simp] theorem timersStep_st : s.timersStep.st = countDown s.st := rfl
@[simp] theorem timersStep_fb : s.timersStep.fb = s.fb := rfl
@[simp] theorem timersStep_wait : s.timersStep.wait = s.wait := rfl
@[simp] theorem timersStep_rng : s.timersStep.rng = s.rng := rfl
@[simp] theorem timersStep_mem : s.timersStep.mem = s.mem := rfl
@[simp] theorem timersStep_params : s.timersStep.params = s.params := rfl
@[simp] theorem timersStep_keyFeed : s.timersStep.keyFeed = s.keyFeed := rfl
@[simp] theorem timersStep_keyCount : s.timersStep.keyCount = s.keyCount := rfl
@[simp] theorem readReg_timersStep (r : Reg) : s.timersStep.readReg r = s.readReg r := rfl
@[simp] theorem readByte_timersStep (a : Nat) : s.timersStep.readByte a = s.readByte a := rfl
@[simp] theorem key_timersStep : s.timersStep.key = s.key := rfl

/-! ## `State.writeReg` -/

@[simp] theorem writeReg_v (r : Reg) (b : Byte) : (s.writeReg r b).v = s.v.set r.toNat b r.isLt := rfl
@[simp] theorem writeReg_pc (r : Reg) (b : Byte) : (s.writeReg r b).pc = s.pc := rfl
@[simp] theorem writeReg_i (r : Reg) (b : Byte) : (s.writeReg r b).i = s.i := rfl
@[simp] theorem writeReg_stack (r : Reg) (b : Byte) : (s.writeReg r b).stack = s.stack := rfl
@[simp] theorem writeReg_sp (r : Reg) (b : Byte) : (s.writeReg r b).sp = s.sp := rfl
@[simp] theorem writeReg_dt (r : Reg) (b : Byte) : (s.writeReg r b).dt = s.dt := rfl
@[simp] theorem writeReg_st (r : Reg) (b : Byte) : (s.writeReg r b).st = s.st := rfl
@[simp] theorem writeReg_fb (r : Reg) (b : Byte) : (s.writeReg r b).fb = s.fb := rfl
@[simp] theorem writeReg_wait (r : Reg) (b : Byte) : (s.writeReg r b).wait = s.wait := rfl
@[simp] theorem writeReg_rng (r : Reg) (b : Byte) : (s.writeReg r b).rng = s.rng := rfl
@[simp] theorem writeReg_mem (r : Reg) (b : Byte) : (s.writeReg r b).mem = s.mem := rfl
@[simp] theorem writeReg_params (r : Reg) (b : Byte) : (s.writeReg r b).params = s.params := rfl
@[simp] theorem writeReg_keyFeed (r : Reg) (b : Byte) : (s.writeReg r b).keyFeed = s.keyFeed := rfl
@[simp] theorem writeReg_keyCount (r : Reg) (b : Byte) : (s.writeReg r b).keyCount = s.keyCount := rfl
@[simp] theorem readByte_writeReg (r : Reg) (b : Byte) (a : Nat) : (s.writeReg r b).readByte a = s.readByte a := rfl
@[simp] theorem key_writeReg (r : Reg) (b : Byte) : (s.writeReg r b).key = s.key := rfl

/-! ## Reading a register after writing one (R8) -/

/-- A register read after a write: the value written, or the old one. -/
theorem readReg_writeReg (q r : Reg) (b : Byte) :
    (s.writeReg r b).readReg q = if q = r then b else s.readReg q := by
  simp only [State.readReg, State.writeReg, Vector.getElem_set]
  by_cases h : q = r
  · simp [h]
  · have : r.toNat ≠ q.toNat := fun e => h (BitVec.eq_of_toNat_eq e.symm)
    simp [h, this]

@[simp] theorem readReg_writeReg_same (r : Reg) (b : Byte) : (s.writeReg r b).readReg r = b := by
  simp [readReg_writeReg]

@[simp] theorem readReg_writeReg_ne (q r : Reg) (b : Byte) (h : q ≠ r) :
    (s.writeReg r b).readReg q = s.readReg q := by
  simp [readReg_writeReg, h]

/-- Two register files that read alike are equal. -/
theorem regs_ext (s t : State) (h : ∀ r, t.readReg r = s.readReg r) : t.v = s.v := by
  apply Vector.ext
  intro k hk
  have := h (BitVec.ofNat 4 k)
  simpa [State.readReg, Nat.mod_eq_of_lt hk] using this

/-! ## `State.consumeKey`: it changes the keypad input alone -/

@[simp] theorem consumeKey_v : s.consumeKey.v = s.v := by
  unfold State.consumeKey; split <;> rfl
@[simp] theorem consumeKey_pc : s.consumeKey.pc = s.pc := by
  unfold State.consumeKey; split <;> rfl
@[simp] theorem consumeKey_i : s.consumeKey.i = s.i := by
  unfold State.consumeKey; split <;> rfl
@[simp] theorem consumeKey_stack : s.consumeKey.stack = s.stack := by
  unfold State.consumeKey; split <;> rfl
@[simp] theorem consumeKey_sp : s.consumeKey.sp = s.sp := by
  unfold State.consumeKey; split <;> rfl
@[simp] theorem consumeKey_dt : s.consumeKey.dt = s.dt := by
  unfold State.consumeKey; split <;> rfl
@[simp] theorem consumeKey_st : s.consumeKey.st = s.st := by
  unfold State.consumeKey; split <;> rfl
@[simp] theorem consumeKey_fb : s.consumeKey.fb = s.fb := by
  unfold State.consumeKey; split <;> rfl
@[simp] theorem consumeKey_wait : s.consumeKey.wait = s.wait := by
  unfold State.consumeKey; split <;> rfl
@[simp] theorem consumeKey_rng : s.consumeKey.rng = s.rng := by
  unfold State.consumeKey; split <;> rfl
@[simp] theorem consumeKey_mem : s.consumeKey.mem = s.mem := by
  unfold State.consumeKey; split <;> rfl
@[simp] theorem consumeKey_params : s.consumeKey.params = s.params := by
  unfold State.consumeKey; split <;> rfl
@[simp] theorem readReg_consumeKey (r : Reg) : s.consumeKey.readReg r = s.readReg r := by
  simp [State.readReg]
@[simp] theorem readByte_consumeKey (a : Nat) : s.consumeKey.readByte a = s.readByte a := by
  simp [State.readByte]

/-- A snapshot presented and then used leaves the input as it was. -/
@[simp] theorem consumeKey_keyFeed_of_cons (k : Keypad) (ks : List Keypad) (h : s.keyFeed = k :: ks) :
    s.consumeKey.keyFeed = ks ∧ s.consumeKey.keyCount = s.keyCount := by
  simp [State.consumeKey, h]

/-! ## Same parts -/

@[simp] theorem same_refl (p : Part) : p.Same s s := by
  cases p <;> simp [Part.Same]

theorem OnlyChanges.refl (parts : List Part) : OnlyChanges s s parts := fun p _ => same_refl s p

end Sys2Proof.Machine
end

