-- ==== Sys2Proof/Laws/Display.lean ====
section
/-! SUPPORT. The compositor's loops as one pass over the sprite's target pixels, and what that pass does to each pixel. -/

namespace Sys2Proof.Machine

/-! ## Pixels -/

theorem pixel_of_ge (fb : FrameBuffer) (k : Nat) (h : 2048 ≤ k) : pixel fb k = false := by
  have : 32 ≤ k / 64 := by omega
  simp [pixel, fbRow, fbWidth, this]

@[simp] theorem pixel_clearFb (k : Nat) : pixel clearFb k = false := by
  by_cases h : k / 64 < 32
  · simp [pixel, fbRow, clearFb, fbWidth, h]
  · exact pixel_of_ge _ _ (by omega)

/-- Two framebuffers with the same pixels are equal. -/
theorem fb_ext (a b : FrameBuffer) (h : ∀ k < 2048, pixel a k = pixel b k) : a = b := by
  apply Vector.ext
  intro cy hcy
  apply BitVec.eq_of_getLsbD_eq
  intro cx hcx
  have hk := h (cy * 64 + cx) (by omega)
  have h1 : (cy * 64 + cx) / 64 = cy := by omega
  have h2 : (cy * 64 + cx) % 64 = cx := by omega
  simpa [pixel, fbRow, fbWidth, h1, h2, hcy] using hk

/-- Toggling a pixel toggles it and no other. -/
theorem pixel_toggle (fb : FrameBuffer) (k j : Nat) (hk : k < 2048) :
    pixel (togglePixel fb k) j = (pixel fb j ^^ decide (j = k)) := by
  have hk' : k / 64 < 32 := by omega
  by_cases hrow : j / 64 = k / 64
  · simp only [pixel, fbRow, togglePixel, fbWidth, hrow, Vector.getElem?_setIfInBounds_self, hk', if_true,
      Option.getD_some, BitVec.getLsbD_xor, BitVec.getLsbD_twoPow]
    congr 1
    simp only [Bool.and_eq_decide]
    rw [decide_eq_decide]
    simp
    omega
  · have hne : k / 64 ≠ j / 64 := fun e => hrow e.symm
    have hjk : j ≠ k := fun e => hrow (by rw [e])
    simp [pixel, fbRow, togglePixel, fbWidth, Vector.getElem?_setIfInBounds_ne hne, hjk]

/-! ## The target pixels of a sprite -/

/-- The pixels under the 1 bits of one sprite row, left to right. -/
def rowTargets (edge : DrawEdge) (x0 y0 row : Byte) (r : Nat) (cols : List Nat) : List Nat :=
  cols.filterMap fun c => if row.getLsbD (7 - c) then place edge x0 y0 c r else none

/-- The pixels under the 1 bits of a sprite whose top row is row `r`, in drawing order. -/
def targets (edge : DrawEdge) (x0 y0 : Byte) : Nat → List Byte → List Nat
  | _, [] => []
  | r, row :: rows => rowTargets edge x0 y0 row r (List.range 8) ++ targets edge x0 y0 (r + 1) rows

/-- One toggle of a canvas. -/
def strike (acc : Canvas) (k : Nat) : Canvas := (togglePixel acc.1 k, acc.2 || pixel acc.1 k)

theorem foldl_drawBit (edge : DrawEdge) (x0 y0 row : Byte) (r : Nat) (cols : List Nat) (acc : Canvas) :
    cols.foldl (drawBit edge x0 y0 row r) acc = (rowTargets edge x0 y0 row r cols).foldl strike acc := by
  induction cols generalizing acc with
  | nil => rfl
  | cons c cols ih =>
    rw [List.foldl_cons, ih, rowTargets, rowTargets, List.filterMap_cons]
    by_cases hb : row.getLsbD (7 - c) = true
    · cases hp : place edge x0 y0 c r <;> simp [drawBit, hb, hp, strike]
    · simp [drawBit, hb]

theorem drawRows_eq_foldl (edge : DrawEdge) (x0 y0 : Byte) (rows : List Byte) (r : Nat) (acc : Canvas) :
    drawRows edge x0 y0 r rows acc = (targets edge x0 y0 r rows).foldl strike acc := by
  induction rows generalizing r acc with
  | nil => rfl
  | cons row rows ih => rw [drawRows, ih, targets, List.foldl_append, drawRow, foldl_drawBit]

theorem place_lt (edge : DrawEdge) (x0 y0 : Byte) (c r k : Nat) (h : place edge x0 y0 c r = some k) :
    k < 2048 := by
  cases edge <;>
    simp only [place, Option.ite_none_right_eq_some, Option.some.injEq] at h <;>
    simp only [fbWidth, fbHeight] at h <;> omega

/-- Under either policy one sprite's bits have different targets (R173). -/
theorem place_inj (edge : DrawEdge) (x0 y0 : Byte) (c r c' r' k : Nat) (hc : c < 8) (hc' : c' < 8)
    (hr : r < 32) (hr' : r' < 32) (h : place edge x0 y0 c r = some k) (h' : place edge x0 y0 c' r' = some k) :
    c = c' ∧ r = r' := by
  cases edge <;>
    simp only [place, Option.ite_none_right_eq_some, Option.some.injEq] at h h' <;>
    simp only [fbWidth, fbHeight] at h h' <;> omega

theorem mem_rowTargets (edge : DrawEdge) (x0 y0 row : Byte) (r k : Nat) (cols : List Nat) :
    k ∈ rowTargets edge x0 y0 row r cols ↔
      ∃ c ∈ cols, row.getLsbD (7 - c) = true ∧ place edge x0 y0 c r = some k := by
  simp only [rowTargets, List.mem_filterMap]
  constructor
  · rintro ⟨c, hc, h⟩
    split at h
    · exact ⟨c, hc, ‹_›, h⟩
    · cases h
  · rintro ⟨c, hc, hb, hp⟩
    exact ⟨c, hc, by simp [hb, hp]⟩

theorem mem_targets (edge : DrawEdge) (x0 y0 : Byte) (rows : List Byte) (r k : Nat) :
    k ∈ targets edge x0 y0 r rows ↔ ∃ j c row, rows[j]? = some row ∧ c < 8 ∧
      row.getLsbD (7 - c) = true ∧ place edge x0 y0 c (r + j) = some k := by
  induction rows generalizing r with
  | nil => simp [targets]
  | cons row rows ih =>
    rw [targets, List.mem_append, mem_rowTargets, ih]
    constructor
    · rintro (⟨c, hc, hb, hp⟩ | ⟨j, c, rw', h1, h2, h3, h4⟩)
      · exact ⟨0, c, row, rfl, by simpa using hc, hb, hp⟩
      · exact ⟨j + 1, c, rw', by simpa using h1, h2, h3, by rw [← h4]; congr 1; omega⟩
    · rintro ⟨j, c, rw', h1, h2, h3, h4⟩
      cases j with
      | zero =>
        simp only [List.getElem?_cons_zero, Option.some.injEq] at h1
        subst h1
        exact .inl ⟨c, by simpa using h2, h3, h4⟩
      | succ j =>
        exact .inr ⟨j, c, rw', by simpa using h1, h2, h3, by rw [← h4]; congr 1; omega⟩

theorem nodup_rowTargets (edge : DrawEdge) (x0 y0 row : Byte) (r : Nat) (hr : r < 32) (cols : List Nat)
    (hcols : ∀ c ∈ cols, c < 8) (hnd : cols.Nodup) : (rowTargets edge x0 y0 row r cols).Nodup := by
  induction cols with
  | nil => simp [rowTargets]
  | cons c cols ih =>
    rw [List.nodup_cons] at hnd
    have hrest := ih (fun d hd => hcols d (by simp [hd])) hnd.2
    rw [rowTargets, List.filterMap_cons]
    split
    · exact hrest
    · rename_i k hk
      refine List.nodup_cons.2 ⟨fun hmem => ?_, hrest⟩
      rw [← rowTargets] at hmem
      obtain ⟨c', hc', -, hp'⟩ := (mem_rowTargets ..).1 hmem
      split at hk
      · have := place_inj edge x0 y0 c r c' r k (hcols c (by simp)) (hcols c' (by simp [hc'])) hr hr hk hp'
        exact hnd.1 (this.1 ▸ hc')
      · cases hk

theorem nodup_targets (edge : DrawEdge) (x0 y0 : Byte) (rows : List Byte) (r : Nat) (hr : r + rows.length ≤ 32) :
    (targets edge x0 y0 r rows).Nodup := by
  induction rows generalizing r with
  | nil => simp [targets]
  | cons row rows ih =>
    rw [List.length_cons] at hr
    rw [targets, List.nodup_append]
    refine ⟨nodup_rowTargets edge x0 y0 row r (by omega) _ (by simp) List.nodup_range, ih _ (by omega), ?_⟩
    rintro a ha b hb rfl
    obtain ⟨c, hc, -, hp⟩ := (mem_rowTargets ..).1 ha
    obtain ⟨j, c', row', hj, hc', -, hp'⟩ := (mem_targets ..).1 hb
    have hjl : j < rows.length := by
      by_contra hge
      rw [List.getElem?_eq_none (by omega)] at hj
      cases hj
    have := place_inj edge x0 y0 c r c' (r + 1 + j) a (by simpa using hc) hc' (by omega) (by omega) hp hp'
    omega

/-! ## What one pass does -/

/-- A pass of toggles over different pixels toggles each of them, and reports one that was set. -/
theorem foldl_strike (ks : List Nat) (hks : ∀ k ∈ ks, k < 2048) (hnd : ks.Nodup) (acc : Canvas) :
    (∀ j, pixel (ks.foldl strike acc).1 j = (pixel acc.1 j ^^ decide (j ∈ ks))) ∧
    ((ks.foldl strike acc).2 = true ↔ acc.2 = true ∨ ∃ k ∈ ks, pixel acc.1 k = true) := by
  induction ks generalizing acc with
  | nil => simp
  | cons k ks ih =>
    rw [List.nodup_cons] at hnd
    obtain ⟨h1, h2⟩ := ih (fun j hj => hks j (by simp [hj])) hnd.2 (strike acc k)
    have hk := hks k (by simp)
    rw [List.foldl_cons]
    refine ⟨fun j => ?_, ?_⟩
    · rw [h1, strike, pixel_toggle _ _ _ hk]
      by_cases hjk : j = k
      · subst hjk; simp [hnd.1]
      · simp [hjk]
    · rw [h2]
      simp only [strike, Bool.or_eq_true, List.mem_cons, exists_eq_or_imp]
      constructor
      · rintro ((h | h) | ⟨j, hj, hp⟩)
        · exact .inl h
        · exact .inr (.inl h)
        · rw [pixel_toggle _ _ _ hk] at hp
          have hjk : j ≠ k := fun e => hnd.1 (e ▸ hj)
          exact .inr (.inr ⟨j, hj, by simpa [hjk] using hp⟩)
      · rintro (h | h | ⟨j, hj, hp⟩)
        · exact .inl (.inl h)
        · exact .inl (.inr h)
        · have hjk : j ≠ k := fun e => hnd.1 (e ▸ hj)
          exact .inr ⟨j, hj, by rw [pixel_toggle _ _ _ hk]; simpa [hjk] using hp⟩

/-- `place` answers where a pixel lands, and nothing where it lands nowhere (R172). -/
theorem place_eq_some (edge : DrawEdge) (x0 y0 : Byte) (c r k : Nat) :
    place edge x0 y0 c r = some k ↔ Lands edge x0 y0 c r k := by
  cases edge <;>
    simp only [place, Option.ite_none_right_eq_some, Option.some.injEq, Lands] <;>
    simp only [fbWidth, fbHeight] <;> omega

/-- The targets of a sprite are its footprint. -/
theorem mem_targets_iff_footprint (edge : DrawEdge) (x0 y0 : Byte) (rows : List Byte) (k : Nat) :
    k ∈ targets edge x0 y0 0 rows ↔ Footprint edge rows x0 y0 k := by
  rw [mem_targets]
  simp only [Footprint, Nat.zero_add, place_eq_some]
  constructor
  · rintro ⟨j, c, row, h1, h2, h3, h4⟩; exact ⟨j, c, h2, ⟨row, h1, h3⟩, h4⟩
  · rintro ⟨j, c, h2, ⟨row, h1, h3⟩, h4⟩; exact ⟨j, c, row, h1, h2, h3, h4⟩

theorem targets_lt (edge : DrawEdge) (x0 y0 : Byte) (rows : List Byte) (r k : Nat)
    (h : k ∈ targets edge x0 y0 r rows) : k < 2048 := by
  obtain ⟨j, c, row, -, -, -, hp⟩ := (mem_targets ..).1 h
  exact place_lt _ _ _ _ _ _ hp

/-- All that the compositor does: each pixel under the footprint is toggled, no other, and a collision
is reported when one of them was set (R173, R175). -/
theorem composite_spec (edge : DrawEdge) (fb : FrameBuffer) (rows : List Byte) (x0 y0 : Byte)
    (hrows : rows.length ≤ 32) :
    (∀ k, pixel (composite edge fb rows x0 y0).1 k = true ↔
      (pixel fb k = true ↔ ¬ Footprint edge rows x0 y0 k)) ∧
    ((composite edge fb rows x0 y0).2 = true ↔ ∃ k, Footprint edge rows x0 y0 k ∧ pixel fb k = true) := by
  have h := foldl_strike (targets edge x0 y0 0 rows) (fun k hk => targets_lt _ _ _ _ _ _ hk)
    (nodup_targets edge x0 y0 rows 0 (by omega)) (fb, false)
  rw [← drawRows_eq_foldl] at h
  refine ⟨fun k => ?_, ?_⟩
  · rw [composite, h.1, ← mem_targets_iff_footprint]
    by_cases hk : k ∈ targets edge x0 y0 0 rows <;> simp [hk]
  · rw [composite, h.2]
    simp [mem_targets_iff_footprint]

end Sys2Proof.Machine
end

