-- ==== Sys2Proof/Laws/Memory.lean ====
section
/-! SUPPORT. The laws of the memory list: read after write, the canonical form kept, equal reads equal data. -/

namespace Sys2Proof.Machine

namespace Memory

/-- Every listed address is above `a`. -/
theorem lookup_of_lt (d : Byte) (m : Memory) (a : Nat) (h : ∀ c ∈ m, a < c.1) : lookup d m a = d := by
  induction m with
  | nil => rfl
  | cons c m ih =>
    have hc := h c (by simp)
    simp only [lookup, if_neg (by omega : ¬ c.1 = a)]
    exact ih fun e he => h e (by simp [he])

theorem lookup_insert_same (d b : Byte) (m : Memory) (a : Nat) : lookup d (insert a b m) a = b := by
  induction m with
  | nil => simp [insert, lookup]
  | cons c m ih =>
    simp only [insert]
    split
    · simp [lookup]
    · split
      · simp [lookup]
      · rename_i h1 h2
        simp [lookup, Ne.symm h2, ih]

theorem lookup_insert_ne (d b : Byte) (m : Memory) (a q : Nat) (hq : q ≠ a) :
    lookup d (insert a b m) q = lookup d m q := by
  induction m with
  | nil => simp [insert, lookup, Ne.symm hq]
  | cons c m ih =>
    simp only [insert]
    split
    · simp [lookup, Ne.symm hq]
    · split
      · rename_i h1 h2
        simp [lookup, ← h2, Ne.symm hq]
      · simp [lookup, ih]

theorem lookup_erase_same (d : Byte) (m : Memory) (a : Nat) : lookup d (erase a m) a = d := by
  induction m with
  | nil => rfl
  | cons c m ih =>
    simp only [erase]
    split
    · exact ih
    · rename_i h; simp [lookup, h, ih]

theorem lookup_erase_ne (d : Byte) (m : Memory) (a q : Nat) (hq : q ≠ a) :
    lookup d (erase a m) q = lookup d m q := by
  induction m with
  | nil => rfl
  | cons c m ih =>
    simp only [erase]
    split
    · rename_i h; simp [lookup, h, Ne.symm hq, ih]
    · simp [lookup, ih]

/-- A byte read after a write: the byte written, or the old one. -/
theorem read_write (f : Nat) (m : Memory) (a q : Nat) (b : Byte) :
    read f (write f m a b) q = if q = a then b else read f m q := by
  by_cases hq : q = a
  · subst hq
    by_cases hb : b = resetByte f q
    · simp [read, write, hb, lookup_erase_same]
    · simp [read, write, hb, lookup_insert_same]
  · by_cases hb : b = resetByte f a
    · simp [read, write, hb, hq, lookup_erase_ne]
    · simp [read, write, hb, hq, lookup_insert_ne]

theorem read_nil (f a : Nat) : read f [] a = resetByte f a := rfl

theorem mem_erase (m : Memory) (a : Nat) (c : Host.Cell) : c ∈ erase a m ↔ c ∈ m ∧ c.1 ≠ a := by
  induction m with
  | nil => simp [erase]
  | cons e m ih =>
    simp only [erase]
    split
    · rename_i h
      constructor
      · intro hc; have := ih.1 hc; exact ⟨by simp [this.1], this.2⟩
      · rintro ⟨hc, hne⟩
        rcases List.mem_cons.1 hc with rfl | hc
        · exact absurd h hne
        · exact ih.2 ⟨hc, hne⟩
    · rename_i h
      constructor
      · intro hc
        rcases List.mem_cons.1 hc with rfl | hc
        · exact ⟨by simp, h⟩
        · have := ih.1 hc; exact ⟨by simp [this.1], this.2⟩
      · rintro ⟨hc, hne⟩
        rcases List.mem_cons.1 hc with rfl | hc
        · simp
        · simp [ih.2 ⟨hc, hne⟩]

theorem mem_insert (m : Memory) (a : Nat) (b : Byte) (c : Host.Cell) (h : c ∈ insert a b m) :
    c = (a, b) ∨ c ∈ m := by
  induction m with
  | nil => simpa [insert] using h
  | cons e m ih =>
    simp only [insert] at h
    split at h
    · simpa using h
    · split at h
      · rcases List.mem_cons.1 h with rfl | h
        · simp
        · simp [h]
      · rcases List.mem_cons.1 h with rfl | h
        · simp
        · rcases ih h with rfl | h
          · simp
          · simp [h]

theorem pairwise_erase (m : Memory) (a : Nat) (h : m.Pairwise (fun c d => c.1 < d.1)) :
    (erase a m).Pairwise (fun c d => c.1 < d.1) := by
  induction m with
  | nil => exact h
  | cons e m ih =>
    rw [List.pairwise_cons] at h
    simp only [erase]
    split
    · exact ih h.2
    · exact List.pairwise_cons.2 ⟨fun c hc => h.1 c ((mem_erase m a c).1 hc).1, ih h.2⟩

theorem pairwise_insert (m : Memory) (a : Nat) (b : Byte) (h : m.Pairwise (fun c d => c.1 < d.1)) :
    (insert a b m).Pairwise (fun c d => c.1 < d.1) := by
  induction m with
  | nil => simp [insert]
  | cons e m ih =>
    have h' := h
    rw [List.pairwise_cons] at h
    simp only [insert]
    split
    · rename_i hlt
      refine List.pairwise_cons.2 ⟨fun c hc => ?_, h'⟩
      rcases List.mem_cons.1 hc with rfl | hc
      · exact hlt
      · exact Nat.lt_trans hlt (h.1 c hc)
    · split
      · rename_i heq
        exact List.pairwise_cons.2 ⟨fun c hc => by simpa [heq] using h.1 c hc, h.2⟩
      · refine List.pairwise_cons.2 ⟨fun c hc => ?_, ih h.2⟩
        rcases mem_insert m a b c hc with rfl | hc
        · simp only; omega
        · exact h.1 c hc

/-- A write to an existing address keeps the canonical form. -/
theorem wf_write (f : Nat) (m : Memory) (a : Nat) (b : Byte) (ha : a < memSize) (h : wf f m) :
    wf f (write f m a b) := by
  unfold write
  split
  · exact ⟨pairwise_erase m a h.1, fun c hc => h.2 c ((mem_erase m a c).1 hc).1⟩
  · rename_i hb
    refine ⟨pairwise_insert m a b h.1, fun c hc => ?_⟩
    rcases mem_insert m a b c hc with rfl | hc
    · exact ⟨ha, hb⟩
    · exact h.2 c hc

theorem wf_nil (f : Nat) : wf f [] := by simp [wf]

/-- A run of writes within memory keeps the canonical form. -/
theorem wf_writeBytes (f : Nat) (bs : List Byte) (m : Memory) (a : Nat) (ha : a + bs.length ≤ memSize)
    (h : wf f m) : wf f (writeBytes f m a bs) := by
  induction bs generalizing m a with
  | nil => exact h
  | cons b bs ih =>
    rw [List.length_cons] at ha
    exact ih _ _ (by omega) (wf_write f m a b (by omega) h)

/-- A byte read after a run of writes: the byte of the run at that address, or the old one. -/
theorem read_writeBytes (f : Nat) (bs : List Byte) (m : Memory) (a q : Nat) :
    read f (writeBytes f m a bs) q =
      if a ≤ q ∧ q < a + bs.length then bs.getD (q - a) 0 else read f m q := by
  induction bs generalizing m a with
  | nil => simp only [writeBytes, List.length_nil]; rw [if_neg (by omega)]
  | cons b bs ih =>
    rw [writeBytes, ih, List.length_cons]
    by_cases h1 : a + 1 ≤ q ∧ q < a + 1 + bs.length
    · rw [if_pos h1, if_pos (by omega)]
      obtain ⟨k, hk⟩ : ∃ k, q - a = k + 1 := ⟨q - a - 1, by omega⟩
      have : q - (a + 1) = k := by omega
      rw [hk, this, List.getD_cons_succ]
    · rw [if_neg h1, read_write]
      by_cases h2 : q = a
      · rw [if_pos h2, if_pos (by omega), h2]; simp
      · rw [if_neg h2, if_neg (by omega)]

/-- The lookup in a rising list of a listed cell is that cell's byte. -/
theorem lookup_of_mem (d : Byte) (m : Memory) (c : Host.Cell) (h : m.Pairwise (fun c d => c.1 < d.1))
    (hc : c ∈ m) : lookup d m c.1 = c.2 := by
  induction m with
  | nil => simp at hc
  | cons e m ih =>
    rw [List.pairwise_cons] at h
    rcases List.mem_cons.1 hc with rfl | hc
    · simp [lookup]
    · have := h.1 c hc
      simp only [lookup, if_neg (by omega : ¬ e.1 = c.1)]
      exact ih h.2 hc

/-- Equal memories are equal data: two lists in canonical form that read alike are the same list. -/
theorem ext_of_wf (f : Nat) (m n : Memory) (hm : wf f m) (hn : wf f n)
    (h : ∀ a, read f m a = read f n a) : m = n := by
  induction m generalizing n with
  | nil =>
    cases n with
    | nil => rfl
    | cons e n =>
      have he := h e.1
      rw [read, read, lookup_of_mem _ _ e hn.1 (by simp)] at he
      exact absurd he.symm (hn.2 e (by simp)).2
  | cons c m ih =>
    cases n with
    | nil =>
      have hc := h c.1
      rw [read, read, lookup_of_mem _ _ c hm.1 (by simp)] at hc
      exact absurd hc (hm.2 c (by simp)).2
    | cons e n =>
      have hm1 := List.pairwise_cons.1 hm.1
      have hn1 := List.pairwise_cons.1 hn.1
      have hce : c.1 = e.1 := by
        rcases Nat.lt_trichotomy c.1 e.1 with hlt | heq | hgt
        · have hc := h c.1
          rw [read, read, lookup_of_mem _ _ c hm.1 (by simp), lookup_of_lt] at hc
          · exact absurd hc (hm.2 c (by simp)).2
          · intro x hx
            rcases List.mem_cons.1 hx with rfl | hx
            · exact hlt
            · exact Nat.lt_trans hlt (hn1.1 x hx)
        · exact heq
        · have he := h e.1
          rw [read, read, lookup_of_mem _ _ e hn.1 (by simp), lookup_of_lt] at he
          · exact absurd he.symm (hn.2 e (by simp)).2
          · intro x hx
            rcases List.mem_cons.1 hx with rfl | hx
            · exact hgt
            · exact Nat.lt_trans hgt (hm1.1 x hx)
      have hbyte : c.2 = e.2 := by
        have := h c.1
        rw [read, read, lookup_of_mem _ _ c hm.1 (by simp), hce, lookup_of_mem _ _ e hn.1 (by simp)] at this
        exact this
      have htail : m = n := by
        refine ih n ⟨hm1.2, fun x hx => hm.2 x (by simp [hx])⟩ ⟨hn1.2, fun x hx => hn.2 x (by simp [hx])⟩ ?_
        intro a
        by_cases ha : a = c.1
        · rw [read, read, lookup_of_lt _ m a (fun x hx => ha ▸ hm1.1 x hx),
            lookup_of_lt _ n a (fun x hx => by rw [ha, hce]; exact hn1.1 x hx)]
        · have := h a
          simpa [read, lookup, Ne.symm ha, ← hce] using this
      rw [htail, Prod.ext hce hbyte]

end Memory

/-! ## The bounds check (R33, R221) -/

/-- No address of the range is out of bounds exactly when the range is empty or ends within memory. -/
theorem firstOutside_eq_none (addr n : Nat) : firstOutside addr n = none ↔ n = 0 ∨ addr + n ≤ memSize := by
  simp only [firstOutside, List.find?_eq_none, List.mem_range'_1, decide_eq_true_eq]
  constructor
  · intro h
    by_cases hn : n = 0
    · exact .inl hn
    · have := h (addr + n - 1) (by omega)
      omega
  · rintro h a ha
    omega

/-- The lowest offending address is `max(addr, 4096)` (R221). -/
theorem firstOutside_eq_some (addr n a : Nat) :
    firstOutside addr n = some a ↔ memSize < addr + n ∧ 0 < n ∧ a = max addr memSize := by
  constructor
  · intro h
    have hnone : firstOutside addr n ≠ none := by simp [h]
    rw [Ne, firstOutside_eq_none] at hnone
    refine ⟨by omega, by omega, ?_⟩
    rw [firstOutside, List.find?_range'_eq_some] at h
    obtain ⟨h1, h2, h3⟩ := h
    have h1 : memSize ≤ a := by simpa using h1
    have h2 : addr ≤ a ∧ a < addr + n := by simpa [List.mem_range'_1] using h2
    have hmin : ∀ j, addr ≤ j → j < a → j < memSize := by
      intro j hj hja
      have := h3 j hj hja
      simpa using this
    rcases Nat.lt_or_ge addr memSize with hlt | hge
    · by_contra hne
      have := hmin memSize (by omega) (by omega)
      omega
    · by_contra hne
      have := hmin addr (by omega) (by omega)
      omega
  · rintro ⟨h1, h2, rfl⟩
    rw [firstOutside, List.find?_range'_eq_some]
    refine ⟨by simp, by simp [List.mem_range'_1]; omega, ?_⟩
    intro j hj hlt
    simp only [Bool.not_eq_eq_eq_not, Bool.not_true, decide_eq_false_iff_not]
    omega

/-! ## `MemRead` and `MemWrite` (R33, R34) -/

/-- All that `MemRead` can answer. -/
theorem memRead_cases (s : State) (addr n : Nat) :
    (n = 0 ∨ addr + n ≤ memSize) ∧ s.memRead addr n = .ok ((List.range' addr n).map s.readByte) ∨
    (memSize < addr + n ∧ 0 < n) ∧ s.memRead addr n = .error (.outOfBounds (max addr memSize)) := by
  by_cases h : n = 0 ∨ addr + n ≤ memSize
  · exact .inl ⟨h, by rw [State.memRead, (firstOutside_eq_none addr n).2 h]⟩
  · have hs : memSize < addr + n ∧ 0 < n := by omega
    exact .inr ⟨hs, by rw [State.memRead, (firstOutside_eq_some addr n _).2 ⟨hs.1, hs.2, rfl⟩]⟩

/-- All that `MemWrite` can answer. -/
theorem memWrite_cases (s : State) (addr : Nat) (bs : List Byte) :
    (bs.length = 0 ∨ addr + bs.length ≤ memSize) ∧
      s.memWrite addr bs = .ok (s.setMem (Memory.writeBytes s.params.fontBase s.mem addr bs)) ∨
    (memSize < addr + bs.length ∧ 0 < bs.length) ∧
      s.memWrite addr bs = .error (.outOfBounds (max addr memSize)) := by
  by_cases h : bs.length = 0 ∨ addr + bs.length ≤ memSize
  · exact .inl ⟨h, by rw [State.memWrite, (firstOutside_eq_none addr _).2 h]⟩
  · have hs : memSize < addr + bs.length ∧ 0 < bs.length := by omega
    exact .inr ⟨hs, by rw [State.memWrite, (firstOutside_eq_some addr _ _).2 ⟨hs.1, hs.2, rfl⟩]⟩

/-- A byte of the state after a run of writes. -/
theorem readByte_writeBytes (s : State) (addr a : Nat) (bs : List Byte) :
    (s.setMem (Memory.writeBytes s.params.fontBase s.mem addr bs)).readByte a =
      if addr ≤ a ∧ a < addr + bs.length then bs.getD (a - addr) 0 else s.readByte a := by
  simp [Memory.read_writeBytes, State.readByte]

end Sys2Proof.Machine
end

