-- ==== Sys2Proof/Laws/Ops.lean ====
section
/-! SUPPORT. What each shared operation can do, said once: stack, blocks, ALU, timers, keypad, fetch and step. -/

namespace Sys2Proof.Machine

/-! ## The return stack (R92, R93) -/

/-- All that a push can answer. -/
theorem push_cases (s : State) (w : Word) :
    s.sp < s.params.stackDepth ∧ s.push w = some (s.setStack (s.stack.set s.sp w) (s.sp + 1)) ∨
    s.params.stackDepth ≤ s.sp ∧ s.push w = none := by
  unfold State.push
  split
  · exact .inl ⟨‹_›, rfl⟩
  · exact .inr ⟨by omega, rfl⟩

/-- All that a pop can answer. -/
theorem pop_cases (s : State) :
    0 < s.sp ∧ s.pop = some (s.stack.getD (s.sp - 1) 0, s.setStack s.stack (s.sp - 1)) ∨
    s.sp = 0 ∧ s.pop = none := by
  unfold State.pop
  split
  · exact .inr ⟨‹_›, rfl⟩
  · exact .inl ⟨by omega, rfl⟩

/-! ## Register blocks (R146 to R148) -/

@[simp] theorem readBlock_length (s : State) (x : Reg) : (s.readBlock x).length = x.toNat + 1 := by
  simp [State.readBlock, blockLength]

theorem readBlock_getD (s : State) (x r : Reg) (h : r.toNat ≤ x.toNat) :
    (s.readBlock x).getD r.toNat 0 = s.readReg r := by
  rw [List.getD_eq_getElem _ _ (by simp; omega)]
  simp [State.readBlock]

/-- A register after a block of writes: the byte of the block for that register, or the old value. -/
theorem readReg_writeBlock (bs : List Byte) (s : State) (k : Nat) (r : Reg) (hk : k + bs.length ≤ 16) :
    (s.writeBlock k bs).readReg r =
      if k ≤ r.toNat ∧ r.toNat < k + bs.length then bs.getD (r.toNat - k) 0 else s.readReg r := by
  induction bs generalizing s k with
  | nil => simp only [State.writeBlock, List.length_nil]; rw [if_neg (by omega)]
  | cons b bs ih =>
    rw [List.length_cons] at hk
    rw [State.writeBlock, ih _ _ (by omega), List.length_cons]
    by_cases h1 : k + 1 ≤ r.toNat ∧ r.toNat < k + 1 + bs.length
    · rw [if_pos h1, if_pos (by omega)]
      obtain ⟨j, hj⟩ : ∃ j, r.toNat - k = j + 1 := ⟨r.toNat - k - 1, by omega⟩
      rw [hj, show r.toNat - (k + 1) = j by omega, List.getD_cons_succ]
    · rw [if_neg h1, readReg_writeReg]
      by_cases h2 : r = BitVec.ofNat 4 k
      · have : r.toNat = k := by rw [h2]; simp; omega
        rw [if_pos h2, if_pos (by omega), this]; simp
      · have : r.toNat ≠ k := fun e => h2 (BitVec.eq_of_toNat_eq (by simp; omega))
        rw [if_neg h2, if_neg (by omega)]

/-- A block of register writes changes the register file alone. -/
theorem writeBlock_eq (bs : List Byte) (s : State) (k : Nat) :
    s.writeBlock k bs = { s with v := (s.writeBlock k bs).v } := by
  induction bs generalizing s k with
  | nil => rfl
  | cons b bs ih => rw [State.writeBlock, ih]; rfl

theorem mem_blockParts (x : Reg) (p : Part) : p ∈ blockParts x ↔ ∃ r : Reg, r.toNat ≤ x.toNat ∧ p = .reg r := by
  simp only [blockParts, blockLength, List.mem_map, List.mem_range]
  constructor
  · rintro ⟨k, hk, rfl⟩
    exact ⟨BitVec.ofNat 4 k, by simp; have := x.isLt; omega, rfl⟩
  · rintro ⟨r, hr, rfl⟩
    exact ⟨r.toNat, by omega, by simp⟩

/-! ## The ALU (R111) -/

@[simp] theorem alu_eq (op : AluOp) (a b : Byte) : (alu op a b).eq = (a == b) := rfl
@[simp] theorem alu_r (op : AluOp) (a b : Byte) : (alu op a b).r = aluResult op a b := rfl
@[simp] theorem alu_flag (op : AluOp) (a b : Byte) : (alu op a b).flag = aluFlag op a b := rfl

theorem aluResult_add_toNat (a b : Byte) : (aluResult .add a b).toNat = (a.toNat + b.toNat) % 256 := by
  simp [aluResult]

theorem aluResult_sub_toNat (a b : Byte) : (aluResult .sub a b).toNat = (a.toNat + 256 - b.toNat) % 256 := by
  simp only [aluResult, BitVec.toNat_ofInt]
  have := a.isLt
  have := b.isLt
  omega

theorem aluResult_shr_toNat (a b : Byte) : (aluResult .shr a b).toNat = a.toNat / 2 := by
  simp [aluResult, Nat.shiftRight_eq_div_pow]

theorem aluResult_shl_toNat (a b : Byte) : (aluResult .shl a b).toNat = a.toNat * 2 % 256 := by
  simp [aluResult, Nat.shiftLeft_eq]

theorem flagByte_cases (f : Bool) : flagByte f = 0x00 ∨ flagByte f = 0x01 := by cases f <;> simp [flagByte]

/-- The destination of an instruction that writes no flag holds the result. -/
theorem readReg_aluToReg (s : State) (op : AluOp) (x : Reg) (a b : Byte) :
    (s.aluToReg op x a b).readReg x = aluResult op a b := by
  rw [State.aluToReg, readReg_advance, readReg_writeReg_same, alu_r]

/-- The destination of a flag-writing instruction holds the result, unless it is `VF`. -/
theorem readReg_aluToRegAndFlag (s : State) (op : AluOp) (x : Reg) (a b : Byte) (h : x ≠ 15) :
    (s.aluToRegAndFlag op x a b).readReg x = aluResult op a b := by
  rw [State.aluToRegAndFlag, readReg_advance, State.writeFlag, readReg_writeReg]
  exact (if_neg h).trans (readReg_writeReg_same _ _ _)

/-- `VF` after a flag-writing instruction, also when it is the destination (R113). -/
theorem readReg_aluToRegAndFlag_flag (s : State) (op : AluOp) (x : Reg) (a b : Byte) :
    (s.aluToRegAndFlag op x a b).readReg 15 = flagByte (aluFlag op a b) := by
  rw [State.aluToRegAndFlag, readReg_advance, State.writeFlag]
  exact readReg_writeReg_same _ _ _

/-! ## The timers (R206) -/

theorem countDown_toNat (b : Byte) : (countDown b).toNat = b.toNat - 1 := by
  unfold countDown
  split
  · rename_i h; simp [h]
  · rename_i h
    have h0 : b.toNat ≠ 0 := fun e => h (BitVec.eq_of_toNat_eq e)
    have := b.isLt
    rw [BitVec.toNat_sub]
    simp
    omega

/-! ## The keypad (R197, R199) -/

/-- The least pressed key, if there is one. -/
theorem lowestKey_eq_some (keys : Keypad) (k : Nat) :
    lowestKey keys = some k ↔ k < 16 ∧ keyPressed keys k = true ∧ ∀ j < k, keyPressed keys j = false := by
  simp only [lowestKey, numKeys, List.find?_range_eq_some, List.mem_range]
  constructor
  · rintro ⟨h1, h2, h3⟩; exact ⟨h2, h1, by simpa using h3⟩
  · rintro ⟨h1, h2, h3⟩; exact ⟨h2, h1, by simpa using h3⟩

theorem lowestKey_eq_none (keys : Keypad) : lowestKey keys = none ↔ ∀ k, keyPressed keys k = false := by
  simp only [lowestKey, numKeys, List.find?_eq_none, List.mem_range, Bool.not_eq_true]
  constructor
  · intro h k
    by_cases hk : k < 16
    · exact h k hk
    · exact BitVec.getLsbD_of_ge _ _ (by omega)
  · intro h k _; exact h k

/-- All that a wait check can do: nothing, or one register write and the end of the wait. -/
theorem waitCheck_cases (s : State) (r : Reg) (keys : Keypad) :
    s.awaitedKey r keys = none ∧ s.waitCheck r keys = s ∨
    ∃ b, s.awaitedKey r keys = some b ∧ s.waitCheck r keys = (s.writeReg r b).setWait .running := by
  unfold State.waitCheck
  cases h : s.awaitedKey r keys with
  | none => exact .inl ⟨rfl, rfl⟩
  | some b => exact .inr ⟨b, rfl, rfl⟩

/-! ## Fetch (R35, R72, R73) -/

/-- All that fetch and decode can answer. -/
theorem fetchDecode_cases (s : State) :
    (∃ w i, s.pc.toNat ≤ 0xFFE ∧ w = wordOfBytes (s.readByte s.pc.toNat) (s.readByte (s.pc.toNat + 1)) ∧
      decode w = some i ∧ s.fetchDecode = .ok i) ∨
    (∃ w, s.pc.toNat ≤ 0xFFE ∧ w = wordOfBytes (s.readByte s.pc.toNat) (s.readByte (s.pc.toNat + 1)) ∧
      decode w = none ∧ s.fetchDecode = .error (.undecodable w)) ∨
    (0xFFE < s.pc.toNat ∧ s.fetchDecode = .error (.outOfBounds (max s.pc.toNat memSize))) := by
  by_cases hpc : s.pc.toNat ≤ 0xFFE
  · have hf : s.fetch = .ok (wordOfBytes (s.readByte s.pc.toNat) (s.readByte (s.pc.toNat + 1))) := by
      rw [State.fetch, (firstOutside_eq_none _ 2).2 (.inr (by simp only [memSize]; omega))]
    cases hd : decode (wordOfBytes (s.readByte s.pc.toNat) (s.readByte (s.pc.toNat + 1))) with
    | none => exact .inr (.inl ⟨_, hpc, rfl, hd, by simp [State.fetchDecode, hf, hd]⟩)
    | some i => exact .inl ⟨_, i, hpc, rfl, hd, by simp [State.fetchDecode, hf, hd]⟩
  · refine .inr (.inr ⟨by omega, ?_⟩)
    have h : firstOutside s.pc.toNat 2 = some (max s.pc.toNat memSize) :=
      (firstOutside_eq_some _ 2 _).2 ⟨by simp only [memSize]; omega, by omega, rfl⟩
    simp [State.fetchDecode, State.fetch, h]

/-! ## The step (R70) -/

/-- All that a step can do when it answers a next state: a wait tick, or an instruction's effect
followed by the timers; either way the tick's snapshot is used. -/
theorem step_next_cases {s t : State} (h : step s = .next t) :
    (∃ r, s.wait = .awaitingKey r ∧ t = (s.waitCheck r s.key).consumeKey) ∨
    (∃ i u, s.wait = .running ∧ s.fetchDecode = .ok i ∧ exec i s = .next u ∧ t = u.timersStep.consumeKey) := by
  unfold step at h
  split at h
  · rename_i r hr
    exact .inl ⟨r, hr, by simpa using h.symm⟩
  · rename_i hr
    split at h
    · cases h
    · rename_i i hi
      split at h
      · rename_i u hu
        exact .inr ⟨i, u, hr, hi, hu, by simpa using h.symm⟩
      · cases h
      · cases h

/-- What fetch and decode see does not depend on the keypad input. -/
@[simp] theorem fetchDecode_presentKey (s : State) (k : Keypad) : (s.presentKey k).fetchDecode = s.fetchDecode := rfl

end Sys2Proof.Machine
end

