-- ==== Sys2Proof/Laws/Decode.lean ====
section
/-! SUPPORT. The decoder's field wires on the encoder's layouts, and a word rebuilt from its fields. -/

namespace Sys2Proof

/-! ## Fields of a word laid out by format (R51, R52) -/

@[simp] theorem fieldT_wordA (t : Nibble) (a : Addr12) : fieldT (wordA t a) = t := by
  apply BitVec.eq_of_getLsbD_eq; intro k hk
  simp only [fieldT, wordA, BitVec.getLsbD_extractLsb', BitVec.getLsbD_append]
  simp [hk]
@[simp] theorem fieldNNN_wordA (t : Nibble) (a : Addr12) : fieldNNN (wordA t a) = a := by
  apply BitVec.eq_of_getLsbD_eq; intro k hk
  simp only [fieldNNN, wordA, BitVec.getLsbD_extractLsb', BitVec.getLsbD_append]
  simp [hk]

@[simp] theorem fieldT_wordXI (t : Nibble) (x : Reg) (v : Byte) : fieldT (wordXI t x v) = t := by
  apply BitVec.eq_of_getLsbD_eq; intro k hk
  simp only [fieldT, wordXI, BitVec.getLsbD_extractLsb', BitVec.getLsbD_append]
  rw [if_neg (by omega), if_neg (by omega), show 12 + k - 8 - 4 = k by omega]
  simp [hk]
@[simp] theorem fieldX_wordXI (t : Nibble) (x : Reg) (v : Byte) : fieldX (wordXI t x v) = x := by
  apply BitVec.eq_of_getLsbD_eq; intro k hk
  simp only [fieldX, wordXI, BitVec.getLsbD_extractLsb', BitVec.getLsbD_append]
  rw [if_neg (by omega), if_pos (by omega)]
  simp [hk]
@[simp] theorem fieldNN_wordXI (t : Nibble) (x : Reg) (v : Byte) : fieldNN (wordXI t x v) = v := by
  apply BitVec.eq_of_getLsbD_eq; intro k hk
  simp only [fieldNN, wordXI, BitVec.getLsbD_extractLsb', BitVec.getLsbD_append]
  rw [if_pos (by omega)]
  simp [hk]

@[simp] theorem fieldT_wordXY (t : Nibble) (x y : Reg) (n : Nibble) : fieldT (wordXY t x y n) = t := by
  apply BitVec.eq_of_getLsbD_eq; intro k hk
  simp only [fieldT, wordXY, BitVec.getLsbD_extractLsb', BitVec.getLsbD_append]
  rw [if_neg (by omega), if_neg (by omega), if_neg (by omega), show 12 + k - 4 - 4 - 4 = k by omega]
  simp [hk]
@[simp] theorem fieldX_wordXY (t : Nibble) (x y : Reg) (n : Nibble) : fieldX (wordXY t x y n) = x := by
  apply BitVec.eq_of_getLsbD_eq; intro k hk
  simp only [fieldX, wordXY, BitVec.getLsbD_extractLsb', BitVec.getLsbD_append]
  rw [if_neg (by omega), if_neg (by omega), if_pos (by omega), show 8 + k - 4 - 4 = k by omega]
  simp [hk]
@[simp] theorem fieldY_wordXY (t : Nibble) (x y : Reg) (n : Nibble) : fieldY (wordXY t x y n) = y := by
  apply BitVec.eq_of_getLsbD_eq; intro k hk
  simp only [fieldY, wordXY, BitVec.getLsbD_extractLsb', BitVec.getLsbD_append]
  rw [if_neg (by omega), if_pos (by omega)]
  simp [hk]
@[simp] theorem fieldN_wordXY (t : Nibble) (x y : Reg) (n : Nibble) : fieldN (wordXY t x y n) = n := by
  apply BitVec.eq_of_getLsbD_eq; intro k hk
  simp only [fieldN, wordXY, BitVec.getLsbD_extractLsb', BitVec.getLsbD_append]
  rw [if_pos (by omega)]
  simp [hk]

/-! ## A word from its fields -/

theorem wordA_fields (w : Word) : wordA (fieldT w) (fieldNNN w) = w := by
  apply BitVec.eq_of_getLsbD_eq; intro k hk
  simp only [fieldT, fieldNNN, wordA, BitVec.getLsbD_extractLsb', BitVec.getLsbD_append]
  split
  · rename_i h; simp [h]
  · rename_i h
    have : k - 12 < 4 := by omega
    simp [this]; congr 1; omega
theorem wordXI_fields (w : Word) : wordXI (fieldT w) (fieldX w) (fieldNN w) = w := by
  apply BitVec.eq_of_getLsbD_eq; intro k hk
  simp only [fieldT, fieldX, fieldNN, wordXI, BitVec.getLsbD_extractLsb', BitVec.getLsbD_append]
  split
  · rename_i h; simp [h]
  · split
    · rename_i h; simp [h]; congr 1; omega
    · have : k - 8 - 4 < 4 := by omega
      simp [this]; congr 1; omega
theorem wordXY_fields (w : Word) : wordXY (fieldT w) (fieldX w) (fieldY w) (fieldN w) = w := by
  apply BitVec.eq_of_getLsbD_eq; intro k hk
  simp only [fieldT, fieldX, fieldY, fieldN, wordXY, BitVec.getLsbD_extractLsb', BitVec.getLsbD_append]
  split
  · rename_i h; simp [h]
  · split
    · rename_i h; simp [h]; congr 1; omega
    · split
      · rename_i h; simp [h]; congr 1; omega
      · have : k - 4 - 4 - 4 < 4 := by omega
        simp [this]; congr 1; omega

/-- The two bytes of a word make the word again (R32, R50). -/
@[simp] theorem wordOfBytes_hi_lo (w : Word) : wordOfBytes (hiByte w) (loByte w) = w := by
  apply BitVec.eq_of_getLsbD_eq; intro k hk
  simp only [hiByte, loByte, wordOfBytes, BitVec.getLsbD_extractLsb', BitVec.getLsbD_append]
  split
  · rename_i h; simp [h]
  · have : k - 8 < 8 := by omega
    simp [this]; congr 1; omega

/-- The table's numbering gives the decoder the word itself. -/
theorem decodeTableWord_eq (nbits w : Nat) : decodeTableWord nbits w = decode (tableWord nbits w) := by
  simp only [decodeTableWord, decodeBytes, wordOfBytes_hi_lo]
  cases decode (tableWord nbits w) <;> rfl

end Sys2Proof
end

