-- ==== Sys2Proof/Laws/PerInstr.lean ====
section
/-! SUPPORT. Laws of the instruction as syntax, one lemma per constructor: its operands fit their fields, its word selects
its own row of the opcode map, and the word holds each operand in the operand's bits. -/

namespace Sys2Proof.Laws

/-! ## A layout under the masks of R52 -/

theorem wordA_and_group (t : Nibble) (a : Addr12) : wordA t a &&& 0xF000#16 = wordA t 0#12 := by
  apply BitVec.eq_of_getLsbD_eq; intro k hk
  simp only [wordA, BitVec.getLsbD_and, BitVec.getLsbD_append]
  interval_cases k <;> simp
theorem wordXI_and_group (t : Nibble) (x : Reg) (v : Byte) : wordXI t x v &&& 0xF000#16 = wordXI t 0#4 0#8 := by
  apply BitVec.eq_of_getLsbD_eq; intro k hk
  simp only [wordXI, BitVec.getLsbD_and, BitVec.getLsbD_append]
  interval_cases k <;> simp
theorem wordXI_and_sub (t : Nibble) (x : Reg) (v : Byte) : wordXI t x v &&& 0xF0FF#16 = wordXI t 0#4 v := by
  apply BitVec.eq_of_getLsbD_eq; intro k hk
  simp only [wordXI, BitVec.getLsbD_and, BitVec.getLsbD_append]
  interval_cases k <;> simp
theorem wordXY_and_sub (t : Nibble) (x y : Reg) (n : Nibble) : wordXY t x y n &&& 0xF00F#16 = wordXY t 0#4 0#4 n := by
  apply BitVec.eq_of_getLsbD_eq; intro k hk
  simp only [wordXY, BitVec.getLsbD_and, BitVec.getLsbD_append]
  interval_cases k <;> simp
theorem wordXY_and_group (t : Nibble) (x y : Reg) (n : Nibble) : wordXY t x y n &&& 0xF000#16 = wordXY t 0#4 0#4 0#4 := by
  apply BitVec.eq_of_getLsbD_eq; intro k hk
  simp only [wordXY, BitVec.getLsbD_and, BitVec.getLsbD_append]
  interval_cases k <;> simp

/-! ## The number a field's bits hold -/

/-- The number in bits `hi` down to `lo` of a word (R8). -/
def bitsOf (w : Word) (hi lo : Nat) : Nat := w.toNat / 2 ^ lo % 2 ^ (hi - lo + 1)

theorem bitsOf_eq (w : Word) (hi lo : Nat) : bitsOf w hi lo = (w.extractLsb' lo (hi - lo + 1)).toNat := by
  simp [bitsOf, Nat.shiftRight_eq_div_pow]

theorem bitsOf_x (w : Word) : bitsOf w 11 8 = (fieldX w).toNat := bitsOf_eq w 11 8
theorem bitsOf_y (w : Word) : bitsOf w 7 4 = (fieldY w).toNat := bitsOf_eq w 7 4
theorem bitsOf_n (w : Word) : bitsOf w 3 0 = (fieldN w).toNat := bitsOf_eq w 3 0
theorem bitsOf_nn (w : Word) : bitsOf w 7 0 = (fieldNN w).toNat := bitsOf_eq w 7 0
theorem bitsOf_nnn (w : Word) : bitsOf w 11 0 = (fieldNNN w).toNat := bitsOf_eq w 11 0

/-! ## Operands fit -/

theorem wellFormed_x (x : Reg) : (OperandField.x x).wellFormed = true := by
  have := x.isLt; simp [OperandField.wellFormed, OperandField.x]; omega
theorem wellFormed_y (x : Reg) : (OperandField.y x).wellFormed = true := by
  have := x.isLt; simp [OperandField.wellFormed, OperandField.y]; omega
theorem wellFormed_n (x : Nibble) : (OperandField.n x).wellFormed = true := by
  have := x.isLt; simp [OperandField.wellFormed, OperandField.n]; omega
theorem wellFormed_nn (x : Byte) : (OperandField.nn x).wellFormed = true := by
  have := x.isLt; simp [OperandField.wellFormed, OperandField.nn]; omega
theorem wellFormed_nnn (x : Addr12) : (OperandField.nnn x).wellFormed = true := by
  have := x.isLt; simp [OperandField.wellFormed, OperandField.nnn]; omega

/-! ## The law, by layout -/

/-- The instruction is well-formed, its word selects the opcode map's row of its number, and each
operand stands in its bits (R51 to R55). -/
def Encoding.Statement (i : Instr) : Prop :=
  i.wellFormed = true ∧
  (∃ row ∈ opcodeRows, row.number = i.row ∧ row.selects (encode i) = true) ∧
  ∀ f ∈ i.fields, bitsOf (encode i) f.hi f.lo = f.value

theorem encodingA (i : Instr) (t : Nibble) (a : Addr12) (row : OpcodeRow) (hf : i.fields = [.nnn a])
    (he : encode i = wordA t a) (hrow : row ∈ opcodeRows) (hnum : row.number = i.row)
    (hbits : row.mask = 0xF000#16 ∧ wordA t 0#12 = row.bits) : Encoding.Statement i := by
  refine ⟨by simp [Instr.wellFormed, hf, wellFormed_nnn], ⟨row, hrow, hnum, ?_⟩, ?_⟩
  · simp [OpcodeRow.selects, he, hbits.1, wordA_and_group, hbits.2]
  · simp [hf, he, OperandField.nnn, bitsOf_nnn]

theorem encodingXI (i : Instr) (t : Nibble) (x : Reg) (v : Byte) (row : OpcodeRow) (hf : i.fields = [.x x, .nn v])
    (he : encode i = wordXI t x v) (hrow : row ∈ opcodeRows) (hnum : row.number = i.row)
    (hbits : row.mask = 0xF000#16 ∧ wordXI t 0#4 0#8 = row.bits) : Encoding.Statement i := by
  refine ⟨by simp [Instr.wellFormed, hf, wellFormed_x, wellFormed_nn], ⟨row, hrow, hnum, ?_⟩, ?_⟩
  · simp [OpcodeRow.selects, he, hbits.1, wordXI_and_group, hbits.2]
  · simp [hf, he, OperandField.nn, OperandField.x, bitsOf_nn, bitsOf_x]

theorem encodingX (i : Instr) (t : Nibble) (x : Reg) (v : Byte) (row : OpcodeRow) (hf : i.fields = [.x x])
    (he : encode i = wordXI t x v) (hrow : row ∈ opcodeRows) (hnum : row.number = i.row)
    (hbits : row.mask = 0xF0FF#16 ∧ wordXI t 0#4 v = row.bits) : Encoding.Statement i := by
  refine ⟨by simp [Instr.wellFormed, hf, wellFormed_x], ⟨row, hrow, hnum, ?_⟩, ?_⟩
  · simp [OpcodeRow.selects, he, hbits.1, wordXI_and_sub, hbits.2]
  · simp [hf, he, OperandField.x, bitsOf_x]

theorem encodingXY (i : Instr) (t : Nibble) (x y : Reg) (n : Nibble) (row : OpcodeRow) (hf : i.fields = [.x x, .y y])
    (he : encode i = wordXY t x y n) (hrow : row ∈ opcodeRows) (hnum : row.number = i.row)
    (hbits : row.mask = 0xF00F#16 ∧ wordXY t 0#4 0#4 n = row.bits) : Encoding.Statement i := by
  refine ⟨by simp [Instr.wellFormed, hf, wellFormed_x, wellFormed_y], ⟨row, hrow, hnum, ?_⟩, ?_⟩
  · simp [OpcodeRow.selects, he, hbits.1, wordXY_and_sub, hbits.2]
  · simp [hf, he, OperandField.x, OperandField.y, bitsOf_x, bitsOf_y]

theorem encodingXYN (i : Instr) (t : Nibble) (x y : Reg) (n : Nibble) (row : OpcodeRow)
    (hf : i.fields = [.x x, .y y, .n n])
    (he : encode i = wordXY t x y n) (hrow : row ∈ opcodeRows) (hnum : row.number = i.row)
    (hbits : row.mask = 0xF000#16 ∧ wordXY t 0#4 0#4 0#4 = row.bits) : Encoding.Statement i := by
  refine ⟨by simp [Instr.wellFormed, hf, wellFormed_x, wellFormed_y, wellFormed_n], ⟨row, hrow, hnum, ?_⟩, ?_⟩
  · simp [OpcodeRow.selects, he, hbits.1, wordXY_and_group, hbits.2]
  · simp [hf, he, OperandField.x, OperandField.y, OperandField.n, bitsOf_x, bitsOf_y, bitsOf_n]

end Sys2Proof.Laws

open Sys2Proof Sys2Proof.Laws

/-! ## One lemma per constructor -/

theorem Sys2Proof.Laws.Encoding.cls : Encoding.Statement .cls :=
  ⟨rfl, ⟨⟨1, 0x00E0, 0xFFFF⟩, by decide, rfl, by decide⟩, by simp [Instr.fields]⟩
theorem Sys2Proof.Laws.Encoding.ret : Encoding.Statement .ret :=
  ⟨rfl, ⟨⟨2, 0x00EE, 0xFFFF⟩, by decide, rfl, by decide⟩, by simp [Instr.fields]⟩
theorem Sys2Proof.Laws.Encoding.jp (a : Addr12) : Encoding.Statement (.jp a) :=
  encodingA _ 0x1 a ⟨3, 0x1000, 0xF000⟩ rfl rfl (by decide) rfl ⟨rfl, by decide⟩
theorem Sys2Proof.Laws.Encoding.call (a : Addr12) : Encoding.Statement (.call a) :=
  encodingA _ 0x2 a ⟨4, 0x2000, 0xF000⟩ rfl rfl (by decide) rfl ⟨rfl, by decide⟩
theorem Sys2Proof.Laws.Encoding.seImm (x : Reg) (v : Byte) : Encoding.Statement (.seImm x v) :=
  encodingXI _ 0x3 x v ⟨5, 0x3000, 0xF000⟩ rfl rfl (by decide) rfl ⟨rfl, by decide⟩
theorem Sys2Proof.Laws.Encoding.sneImm (x : Reg) (v : Byte) : Encoding.Statement (.sneImm x v) :=
  encodingXI _ 0x4 x v ⟨6, 0x4000, 0xF000⟩ rfl rfl (by decide) rfl ⟨rfl, by decide⟩
theorem Sys2Proof.Laws.Encoding.seReg (x y : Reg) : Encoding.Statement (.seReg x y) :=
  encodingXY _ 0x5 x y 0x0 ⟨7, 0x5000, 0xF00F⟩ rfl rfl (by decide) rfl ⟨rfl, by decide⟩
theorem Sys2Proof.Laws.Encoding.ldImm (x : Reg) (v : Byte) : Encoding.Statement (.ldImm x v) :=
  encodingXI _ 0x6 x v ⟨8, 0x6000, 0xF000⟩ rfl rfl (by decide) rfl ⟨rfl, by decide⟩
theorem Sys2Proof.Laws.Encoding.addImm (x : Reg) (v : Byte) : Encoding.Statement (.addImm x v) :=
  encodingXI _ 0x7 x v ⟨9, 0x7000, 0xF000⟩ rfl rfl (by decide) rfl ⟨rfl, by decide⟩
theorem Sys2Proof.Laws.Encoding.ldReg (x y : Reg) : Encoding.Statement (.ldReg x y) :=
  encodingXY _ 0x8 x y 0x0 ⟨10, 0x8000, 0xF00F⟩ rfl rfl (by decide) rfl ⟨rfl, by decide⟩
theorem Sys2Proof.Laws.Encoding.or (x y : Reg) : Encoding.Statement (.or x y) :=
  encodingXY _ 0x8 x y 0x1 ⟨11, 0x8001, 0xF00F⟩ rfl rfl (by decide) rfl ⟨rfl, by decide⟩
theorem Sys2Proof.Laws.Encoding.and (x y : Reg) : Encoding.Statement (.and x y) :=
  encodingXY _ 0x8 x y 0x2 ⟨12, 0x8002, 0xF00F⟩ rfl rfl (by decide) rfl ⟨rfl, by decide⟩
theorem Sys2Proof.Laws.Encoding.xor (x y : Reg) : Encoding.Statement (.xor x y) :=
  encodingXY _ 0x8 x y 0x3 ⟨13, 0x8003, 0xF00F⟩ rfl rfl (by decide) rfl ⟨rfl, by decide⟩
theorem Sys2Proof.Laws.Encoding.addReg (x y : Reg) : Encoding.Statement (.addReg x y) :=
  encodingXY _ 0x8 x y 0x4 ⟨14, 0x8004, 0xF00F⟩ rfl rfl (by decide) rfl ⟨rfl, by decide⟩
theorem Sys2Proof.Laws.Encoding.sub (x y : Reg) : Encoding.Statement (.sub x y) :=
  encodingXY _ 0x8 x y 0x5 ⟨15, 0x8005, 0xF00F⟩ rfl rfl (by decide) rfl ⟨rfl, by decide⟩
theorem Sys2Proof.Laws.Encoding.shr (x y : Reg) : Encoding.Statement (.shr x y) :=
  encodingXY _ 0x8 x y 0x6 ⟨16, 0x8006, 0xF00F⟩ rfl rfl (by decide) rfl ⟨rfl, by decide⟩
theorem Sys2Proof.Laws.Encoding.subn (x y : Reg) : Encoding.Statement (.subn x y) :=
  encodingXY _ 0x8 x y 0x7 ⟨17, 0x8007, 0xF00F⟩ rfl rfl (by decide) rfl ⟨rfl, by decide⟩
theorem Sys2Proof.Laws.Encoding.shl (x y : Reg) : Encoding.Statement (.shl x y) :=
  encodingXY _ 0x8 x y 0xE ⟨18, 0x800E, 0xF00F⟩ rfl rfl (by decide) rfl ⟨rfl, by decide⟩
theorem Sys2Proof.Laws.Encoding.sneReg (x y : Reg) : Encoding.Statement (.sneReg x y) :=
  encodingXY _ 0x9 x y 0x0 ⟨19, 0x9000, 0xF00F⟩ rfl rfl (by decide) rfl ⟨rfl, by decide⟩
theorem Sys2Proof.Laws.Encoding.ldI (a : Addr12) : Encoding.Statement (.ldI a) :=
  encodingA _ 0xA a ⟨20, 0xA000, 0xF000⟩ rfl rfl (by decide) rfl ⟨rfl, by decide⟩
theorem Sys2Proof.Laws.Encoding.ldIV0 (a : Addr12) : Encoding.Statement (.ldIV0 a) :=
  encodingA _ 0xB a ⟨21, 0xB000, 0xF000⟩ rfl rfl (by decide) rfl ⟨rfl, by decide⟩
theorem Sys2Proof.Laws.Encoding.rnd (x : Reg) (v : Byte) : Encoding.Statement (.rnd x v) :=
  encodingXI _ 0xC x v ⟨22, 0xC000, 0xF000⟩ rfl rfl (by decide) rfl ⟨rfl, by decide⟩
theorem Sys2Proof.Laws.Encoding.drw (x y : Reg) (n : Nibble) : Encoding.Statement (.drw x y n) :=
  encodingXYN _ 0xD x y n ⟨23, 0xD000, 0xF000⟩ rfl rfl (by decide) rfl ⟨rfl, by decide⟩
theorem Sys2Proof.Laws.Encoding.skp (x : Reg) : Encoding.Statement (.skp x) :=
  encodingX _ 0xE x 0x9E ⟨24, 0xE09E, 0xF0FF⟩ rfl rfl (by decide) rfl ⟨rfl, by decide⟩
theorem Sys2Proof.Laws.Encoding.sknp (x : Reg) : Encoding.Statement (.sknp x) :=
  encodingX _ 0xE x 0xA1 ⟨25, 0xE0A1, 0xF0FF⟩ rfl rfl (by decide) rfl ⟨rfl, by decide⟩
theorem Sys2Proof.Laws.Encoding.ldVxDt (x : Reg) : Encoding.Statement (.ldVxDt x) :=
  encodingX _ 0xF x 0x07 ⟨26, 0xF007, 0xF0FF⟩ rfl rfl (by decide) rfl ⟨rfl, by decide⟩
theorem Sys2Proof.Laws.Encoding.ldVxK (x : Reg) : Encoding.Statement (.ldVxK x) :=
  encodingX _ 0xF x 0x0A ⟨27, 0xF00A, 0xF0FF⟩ rfl rfl (by decide) rfl ⟨rfl, by decide⟩
theorem Sys2Proof.Laws.Encoding.ldDtVx (x : Reg) : Encoding.Statement (.ldDtVx x) :=
  encodingX _ 0xF x 0x15 ⟨28, 0xF015, 0xF0FF⟩ rfl rfl (by decide) rfl ⟨rfl, by decide⟩
theorem Sys2Proof.Laws.Encoding.ldStVx (x : Reg) : Encoding.Statement (.ldStVx x) :=
  encodingX _ 0xF x 0x18 ⟨29, 0xF018, 0xF0FF⟩ rfl rfl (by decide) rfl ⟨rfl, by decide⟩
theorem Sys2Proof.Laws.Encoding.addI (x : Reg) : Encoding.Statement (.addI x) :=
  encodingX _ 0xF x 0x1E ⟨30, 0xF01E, 0xF0FF⟩ rfl rfl (by decide) rfl ⟨rfl, by decide⟩
theorem Sys2Proof.Laws.Encoding.ldF (x : Reg) : Encoding.Statement (.ldF x) :=
  encodingX _ 0xF x 0x29 ⟨31, 0xF029, 0xF0FF⟩ rfl rfl (by decide) rfl ⟨rfl, by decide⟩
theorem Sys2Proof.Laws.Encoding.ldB (x : Reg) : Encoding.Statement (.ldB x) :=
  encodingX _ 0xF x 0x33 ⟨32, 0xF033, 0xF0FF⟩ rfl rfl (by decide) rfl ⟨rfl, by decide⟩
theorem Sys2Proof.Laws.Encoding.ldMemVx (x : Reg) : Encoding.Statement (.ldMemVx x) :=
  encodingX _ 0xF x 0x55 ⟨33, 0xF055, 0xF0FF⟩ rfl rfl (by decide) rfl ⟨rfl, by decide⟩
theorem Sys2Proof.Laws.Encoding.ldVxMem (x : Reg) : Encoding.Statement (.ldVxMem x) :=
  encodingX _ 0xF x 0x65 ⟨34, 0xF065, 0xF0FF⟩ rfl rfl (by decide) rfl ⟨rfl, by decide⟩
end

