-- ==== Sys2Proof/Certificates/Slice0/Obligations.lean ====
section
/-! DEFINITION. The statements for the provers. Each docstring names the rule of spec/ it formalises and, where the
rule rests on a decision the spec marks as its own, that decision. In every statement the parameters
are those of the state, so a statement holds for every configuration, and the keypad snapshot is the
state's, free values included. -/

open Sys2Proof Sys2Proof.Machine

/-! ## Encoding -/

/-- Words written out from the encodings of R55, one or more per family, and words no row matches.
Every bit pattern is the spec's decision D5. -/
def Obligations.ListedWordsDecode : Prop :=
  decode 0b0000000011100000 = some .cls ∧
  decode 0b0000000011101110 = some .ret ∧
  decode 0b0001101010111100 = some (.jp 0xABC) ∧
  decode 0b0010001100000000 = some (.call 0x300) ∧
  decode 0b0011001100101010 = some (.seImm 3 0x2A) ∧
  decode 0b0101000100100000 = some (.seReg 1 2) ∧
  decode 0b0111001000000001 = some (.addImm 2 1) ∧
  decode 0b1000000100100101 = some (.sub 1 2) ∧
  decode 0b1000000100101110 = some (.shl 1 2) ∧
  decode 0b1011001100000000 = some (.ldIV0 0x300) ∧
  decode 0b1100000100001111 = some (.rnd 1 0x0F) ∧
  decode 0b1101111100010001 = some (.drw 15 1 1) ∧
  decode 0b1110000110100001 = some (.sknp 1) ∧
  decode 0b1111001100001010 = some (.ldVxK 3) ∧
  decode 0b1111001001010101 = some (.ldMemVx 2) ∧
  decode 0b0000000000000000 = none ∧
  decode 0b0101000100100001 = none ∧
  decode 0b1000000100101111 = none

/-- Decoding an encoded instruction gives it back, with every operand at every value (R77, D5). -/
def Obligations.DecodeOfEncode : Prop :=
  ∀ i : Instr, i.wellFormed = true → decode (encode i) = some i

/-- A decodable word is the encoding of what it decodes to: `encode(decode(w)) = w` (R77, the field
`y` of the shifts kept). -/
def Obligations.EncodeOfDecode : Prop :=
  ∀ (w : Word) (i : Instr), decode w = some i → encode i = w

/-- The decision procedure of R76 and the mask-and-match map of R55 agree on every word. -/
def Obligations.DecodeAgreesWithOpcodeMap : Prop :=
  ∀ w : Word, (decode w).map Instr.row = (opcodeRows.find? (fun r => r.selects w)).map OpcodeRow.number

/-- No word selects two rows of the opcode map (R55). -/
def Obligations.OpcodeRowsAreDisjoint : Prop :=
  ∀ (w : Word) (r q : OpcodeRow), r ∈ opcodeRows → q ∈ opcodeRows → r.selects w = true → q.selects w = true → r = q

/-- The undecodable words are exactly the sets listed in R57 (D14). -/
def Obligations.UndecodableWordsAreTheListedSets : Prop :=
  ∀ w : Word, decode w = none ↔
    (w.toNat < 0x1000 ∧ w ≠ 0x00E0 ∧ w ≠ 0x00EE) ∨
    (w.toNat / 0x1000 = 0x5 ∧ w.toNat % 16 ≠ 0) ∨
    (w.toNat / 0x1000 = 0x8 ∧ 8 ≤ w.toNat % 16 ∧ w.toNat % 16 ≠ 0xE) ∨
    (w.toNat / 0x1000 = 0x9 ∧ w.toNat % 16 ≠ 0) ∨
    (w.toNat / 0x1000 = 0xE ∧ w.toNat % 256 ∉ [0x9E, 0xA1]) ∨
    (w.toNat / 0x1000 = 0xF ∧ w.toNat % 256 ∉ [0x07, 0x0A, 0x15, 0x18, 0x1E, 0x29, 0x33, 0x55, 0x65])

/-! ## The step -/

/-- When the bytes at `pc` decode to `i`, a step is `exec i` followed by one decrement of each nonzero
timer, and the tick's keypad snapshot is used up; an error of `exec` is the step's (R70, R71, R72, R206; the
byte order is D1, the snapshot list the model's own, log entry 1). -/
def Obligations.StepRunsTheDecodedInstruction : Prop :=
  ∀ (s : State) (i : Instr), s.wait = .running → s.pc.toNat ≤ 0xFFE →
    decode (s.readByte s.pc.toNat ++ s.readByte (s.pc.toNat + 1)) = some i →
    (∀ t, exec i s = .next t → ∃ u, step s = .next u ∧ u.dt.toNat = t.dt.toNat - 1 ∧
      u.st.toNat = t.st.toNat - 1 ∧ u.keyFeed = t.keyFeed.tail ∧
      u.keyCount = (if t.keyFeed = [] then t.keyCount + 1 else t.keyCount) ∧ OnlyChanges t u [.dt, .st, .keys]) ∧
    (∀ e, exec i s = .fault e → step s = .fault e)

/-- R35: a fetch succeeds exactly when `pc <= 0xFFE`, gives the two bytes with the first one high, and
else reports `pc`, or 4096 when `pc` = 4095 (the byte order is D1, the address reported D16). -/
def Obligations.FetchReadsTwoBytesOrReports : Prop :=
  ∀ s : State,
    (s.pc.toNat ≤ 0xFFE → s.fetch = .ok (s.readByte s.pc.toNat ++ s.readByte (s.pc.toNat + 1))) ∧
    (s.pc.toNat = 4095 → s.fetch = .error (.outOfBounds 4096)) ∧
    (4096 ≤ s.pc.toNat → s.fetch = .error (.outOfBounds s.pc.toNat))

/-- A real step whose `pc` is out of range, or whose word no row matches, ends with that error
(R221, R222, R226; the payload of `Undecodable` is D18). -/
def Obligations.StepRaisesFetchAndDecodeErrors : Prop :=
  ∀ s : State, s.wait = .running →
    (0xFFE < s.pc.toNat → step s = .fault (.outOfBounds (max s.pc.toNat 4096))) ∧
    (∀ w, s.fetch = .ok w → decode w = none → step s = .fault (.undecodable w))

/-- A step ends with an error only as R220, R226 and R233 list: fetch, then decode, then the one
execution-phase error of `CALL`, `RET`, `DRW`, `LD B`, `LD [I]` or `LD Vx,[I]`. -/
def Obligations.StepErrorsAreTheListedOnes : Prop :=
  ∀ (s : State) (e : Fault), step s = .fault e → s.wait = .running ∧
    ((0xFFE < s.pc.toNat ∧ e = .outOfBounds (max s.pc.toNat 4096)) ∨
     (∃ w, s.fetch = .ok w ∧ decode w = none ∧ e = .undecodable w) ∨
     (∃ nnn, s.fetchDecode = .ok (.call nnn) ∧ s.params.stackDepth ≤ s.sp ∧ e = .stackOverflow) ∨
     (s.fetchDecode = .ok .ret ∧ s.sp = 0 ∧ e = .stackUnderflow) ∨
     (∃ i n, s.fetchDecode = .ok i ∧
       ((∃ x y h, i = .drw x y h ∧ n = h.toNat ∧ 0 < n) ∨ (∃ x, i = .ldB x ∧ n = 3) ∨
        (∃ x, i = .ldMemVx x ∧ n = x.toNat + 1) ∨ (∃ x, i = .ldVxMem x ∧ n = x.toNat + 1)) ∧
       4096 < s.i.toNat + n ∧ e = .outOfBounds (max s.i.toNat 4096)))

/-- Every decodable instruction has a meaning: no step is refused (R57, R74). -/
def Obligations.StepIsNeverRefused : Prop :=
  ∀ (s : State) (r : Refusal), step s ≠ .refused r

/-- The 28 instructions that neither access data memory nor the stack complete from every state (R233). -/
def Obligations.TwentyEightInstructionsAlwaysComplete : Prop :=
  ∀ (i : Instr) (s : State),
    (∀ nnn, i ≠ .call nnn) → i ≠ .ret → (∀ x y n, i ≠ .drw x y n) → (∀ x, i ≠ .ldB x) →
    (∀ x, i ≠ .ldMemVx x) → (∀ x, i ≠ .ldVxMem x) → ∃ t, exec i s = .next t

/-- A tick that returns an error leaves all state as it was, and the same error recurs at every later
tick whatever the keypad shows (R224, R228; for execution-phase errors D15). -/
def Obligations.ErrorTickChangesNothingAndRecurs : Prop :=
  ∀ (s t : State) (keys : Keypad) (e : Fault), hostTick keys s = (t, .error e) →
    t = s ∧ ∀ later : Keypad, hostTick later s = (s, .error e)

/-- A word placed for the next fetch is the one that step decodes and runs, and nothing else changes but
the two bytes, a key-wait and a `pc` no fetch can read from (the model's choice: log entry 10). -/
def Obligations.PlacedWordIsFetchedNext : Prop :=
  ∀ (s : State) (w : Nat), w < 65536 →
    (s.withFetchWord 16 w).wait = .running ∧
    (s.withFetchWord 16 w).fetch = .ok (BitVec.ofNat 16 w) ∧
    (s.pc.toNat ≤ 0xFFE → (s.withFetchWord 16 w).pc = s.pc) ∧
    OnlyChanges s (s.withFetchWord 16 w) [.pc, .wait, .mem] ∧
    OnlyStores s (s.withFetchWord 16 w) (s.withFetchWord 16 w).pc.toNat 2

/-! ## The key-wait machine -/

/-- The wait tick under `AnyLowest`: the least pressed key goes to `V[r]` and the wait ends; with no key
pressed nothing changes; `pc`, memory and the timers are not looked at (R197, R198; D11). -/
def Obligations.WaitTickTakesTheLowestKey : Prop :=
  ∀ (s : State) (r : Reg), s.wait = .awaitingKey r → s.params.keyWaitPolicy = .anyLowest →
    (∀ k, k < 16 → s.key.getLsbD k = true → (∀ j < k, s.key.getLsbD j = false) →
      ∃ t, step s = .next t ∧ (t.readReg r).toNat = k ∧ t.wait = .running ∧
        OnlyChanges s t [.reg r, .wait, .keys]) ∧
    (s.key = 0 → ∃ t, step s = .next t ∧ OnlyChanges s t [.keys])

/-- The wait tick under the two other policies of R199 (D11): the key that must be pressed is the one the
register's low four bits name, or the one with the register's own number. -/
def Obligations.WaitTickUnderTheOtherPolicies : Prop :=
  ∀ (s : State) (r : Reg) (k : Nat), s.wait = .awaitingKey r →
    (s.params.keyWaitPolicy = .regValue ∧ k = (s.readReg r).toNat % 16 ∨
      s.params.keyWaitPolicy = .regIndex ∧ k = r.toNat) →
    (s.key.getLsbD k = true → ∃ t, step s = .next t ∧ (t.readReg r).toNat = k ∧ t.wait = .running ∧
      OnlyChanges s t [.reg r, .wait, .keys]) ∧
    (s.key.getLsbD k = false → ∃ t, step s = .next t ∧ OnlyChanges s t [.keys])

/-- Only a real step executing `LD Vx, K` starts a wait; every other completed step of a running machine
leaves it running (R198). -/
def Obligations.OnlyAwaitKeyStartsAWait : Prop :=
  ∀ s t : State, s.wait = .running → step s = .next t →
    (∃ x, s.fetchDecode = .ok (.ldVxK x) ∧ t.wait = .awaitingKey x) ∨
    ((∀ x, s.fetchDecode ≠ .ok (.ldVxK x)) ∧ t.wait = .running)

/-! ## Whole-machine rules -/

/-- An instruction that completes changes only the parts its row of the access matrix writes (R27); the
parameters and the keypad input are never among them. -/
def Obligations.AccessMatrixWrites : Prop :=
  ∀ (i : Instr) (s t : State), exec i s = .next t → OnlyChanges s t (writtenParts s.params i)

/-- Every instruction but the transfers and the skips advances `pc` by 2, modulo 2^16; `LD I, V0+nnn` too,
unless `BNNN_TARGET` = `PC` (R13, R79; the unit of 2 is D2). The numbers are those of the opcode map. -/
def Obligations.OtherInstructionsAdvanceByTwo : Prop :=
  ∀ (i : Instr) (s t : State), exec i s = .next t → i.row ∉ [2, 3, 4, 5, 6, 7, 19, 24, 25] →
    (i.row = 21 → s.params.bnnnTarget = .index) → t.pc.toNat = (s.pc.toNat + 2) % 65536

/-- Two states that agree on the parts an instruction's row of the access matrix reads give the same
error, or next states that agree on every part it writes; memory agrees wherever it agreed before
(R27, R80). -/
def Obligations.AccessMatrixReads : Prop :=
  ∀ (i : Instr) (s s' : State), (∀ p ∈ readParts s.params i, p.Same s s') →
    (∃ e, exec i s = .fault e ∧ exec i s' = .fault e) ∨
    (∃ t t', exec i s = .next t ∧ exec i s' = .next t' ∧
      (∀ p ∈ writtenParts s.params i, p ≠ .mem → p.Same t t') ∧
      (∀ a, s'.readByte a = s.readByte a → t'.readByte a = t.readByte a))

/-- The invariant holds in every state a step reaches from a state where it holds (R26). -/
def Obligations.InvariantKeptByEveryStep : Prop :=
  ∀ s t : State, s.Inv → step s = .next t → t.Inv

/-- The invariant holds right after reset under every configuration the spec allows (R23, R26). -/
def Obligations.InvariantHoldsAfterReset : Prop :=
  ∀ p : Params, p.wellFormed = true → (State.resetWith p).Inv

/-- The invariant is kept by every sequence of host operations: resets, program loads of any length and
ticks with any snapshots, failed ones included (R26, R36 to R42, R236). -/
def Obligations.InvariantKeptByHostOperations : Prop :=
  ∀ (ops : List HostOp) (s : State), s.Inv → (applyHostOps ops s).1.Inv

/-- After each of the six flag-writing instructions `VF` is `0x00` or `0x01`, also when `x` = 15
(R12, R26; D10). -/
def Obligations.FlagInstructionsLeaveZeroOrOne : Prop :=
  ∀ (i : Instr) (x y : Reg) (n : Nibble) (s t : State),
    i ∈ [.addReg x y, .sub x y, .subn x y, .shr x y, .shl x y, .drw x y n] → exec i s = .next t →
    t.readReg 15 = 0x00 ∨ t.readReg 15 = 0x01

/-- Neither timer rises in a step but by the instruction that writes it, and neither changes while the
machine waits for a key (R26, R206). -/
def Obligations.TimersRiseOnlyWhenWritten : Prop :=
  ∀ s t : State, step s = .next t →
    ((∀ x, s.fetchDecode ≠ .ok (.ldDtVx x)) → t.dt.toNat ≤ s.dt.toNat) ∧
    ((∀ x, s.fetchDecode ≠ .ok (.ldStVx x)) → t.st.toNat ≤ s.st.toNat) ∧
    (s.wait ≠ .running → t.dt = s.dt ∧ t.st = s.st)

/-- The generator advances exactly once per executed `RND` and at no other time (R162). -/
def Obligations.GeneratorAdvancesOnlyByRnd : Prop :=
  ∀ s t : State, step s = .next t →
    (∃ x nn, s.wait = .running ∧ s.fetchDecode = .ok (.rnd x nn) ∧
      t.rng.toNat = (s.params.prngMul.toNat * s.rng.toNat + s.params.prngInc.toNat) % 256) ∨
    ((s.wait = .running → ∀ x nn, s.fetchDecode ≠ .ok (.rnd x nn)) ∧ t.rng = s.rng)

/-- A jump to its own address counts each timer down by one, not below 0, and leaves every other part of the
machine as it was: the end of a run by self-jump (R258, R206). Of the model's own keypad input (log entry 1)
nothing is said. -/
def Obligations.SelfJumpChangesOnlyTimers : Prop :=
  ∀ (s : State) (nnn : Addr12), s.wait = .running → s.fetchDecode = .ok (.jp nnn) → s.pc.toNat = nnn.toNat →
    ∃ t, step s = .next t ∧ t.dt.toNat = s.dt.toNat - 1 ∧ t.st.toNat = s.st.toNat - 1 ∧
      OnlyChanges s t [.dt, .st, .keys]

/-! ## Control transfer and skips -/

/-- R90: `JP nnn` sets `pc` to the zero-extended address and touches nothing else. -/
def Obligations.JumpLoadsPc : Prop :=
  ∀ (nnn : Addr12) (s : State),
    ∃ t, exec (.jp nnn) s = .next t ∧ t.pc.toNat = nnn.toNat ∧ OnlyChanges s t [.pc]

/-- `CALL nnn` with a frame free pushes its own address and jumps; with none free it raises
`StackOverflow` (R92; what is pushed and the capacity are D9). The bound on the list is part of the
invariant. -/
def Obligations.CallPushesItsOwnAddress : Prop :=
  ∀ (nnn : Addr12) (s : State), s.stack.length = s.params.stackDepth →
    (s.sp < s.params.stackDepth → ∃ t, exec (.call nnn) s = .next t ∧ t.pc.toNat = nnn.toNat ∧
      t.sp = s.sp + 1 ∧ t.stack[s.sp]? = some s.pc ∧ (∀ k, k ≠ s.sp → t.stack[k]? = s.stack[k]?) ∧
      OnlyChanges s t [.pc, .stack]) ∧
    (s.sp = s.params.stackDepth → exec (.call nnn) s = .fault .stackOverflow)

/-- `RET` with a frame active resumes two bytes after the popped address and leaves the slot's contents;
with none it raises `StackUnderflow` (R93; D9).
The stride of `pc` is D2. -/
def Obligations.ReturnResumesAfterTheCall : Prop :=
  ∀ s : State, s.stack.length = s.params.stackDepth → s.sp ≤ s.params.stackDepth →
    (∀ w, 0 < s.sp → s.stack[s.sp - 1]? = some w → ∃ t, exec .ret s = .next t ∧ t.pc = w + 2 ∧
      t.sp = s.sp - 1 ∧ t.stack = s.stack ∧ OnlyChanges s t [.pc, .stack]) ∧
    (s.sp = 0 → exec .ret s = .fault .stackUnderflow)

/-- A `RET` that finds the stack as a `CALL` left it comes back to the instruction after that `CALL`, at
the depth before it (R92, R93; D9).
The stride of `pc` is D2. -/
def Obligations.CallThenReturnComesBack : Prop :=
  ∀ (nnn : Addr12) (s t u : State), s.stack.length = s.params.stackDepth → exec (.call nnn) s = .next t →
    u.stack = t.stack → u.sp = t.sp → ∃ v, exec .ret u = .next v ∧ v.pc = s.pc + 2 ∧ v.sp = s.sp

/-- The four register skips complete from every state and write `pc` alone: by 4 when the condition
holds, else by 2 (R94 to R98; the stride is D2). -/
def Obligations.RegisterSkips : Prop :=
  ∀ (x y : Reg) (nn : Byte) (s : State),
    (∃ t, exec (.seImm x nn) s = .next t ∧ OnlyChanges s t [.pc] ∧
      t.pc.toNat = (s.pc.toNat + if s.readReg x = nn then 4 else 2) % 65536) ∧
    (∃ t, exec (.sneImm x nn) s = .next t ∧ OnlyChanges s t [.pc] ∧
      t.pc.toNat = (s.pc.toNat + if s.readReg x = nn then 2 else 4) % 65536) ∧
    (∃ t, exec (.seReg x y) s = .next t ∧ OnlyChanges s t [.pc] ∧
      t.pc.toNat = (s.pc.toNat + if s.readReg x = s.readReg y then 4 else 2) % 65536) ∧
    (∃ t, exec (.sneReg x y) s = .next t ∧ OnlyChanges s t [.pc] ∧
      t.pc.toNat = (s.pc.toNat + if s.readReg x = s.readReg y then 2 else 4) % 65536)

/-- The key skips complete from every state and write `pc` alone; the key is the one the register's low
four bits name (R190, R191, R193; D12, D2). -/
def Obligations.KeySkips : Prop :=
  ∀ (x : Reg) (s : State),
    (∃ t, exec (.skp x) s = .next t ∧ OnlyChanges s t [.pc] ∧
      t.pc.toNat = (s.pc.toNat + if s.key.getLsbD ((s.readReg x).toNat % 16) then 4 else 2) % 65536) ∧
    (∃ t, exec (.sknp x) s = .next t ∧ OnlyChanges s t [.pc] ∧
      t.pc.toNat = (s.pc.toNat + if s.key.getLsbD ((s.readReg x).toNat % 16) then 2 else 4) % 65536)

/-! ## The ALU instructions -/

/-- R114: `LD Vx, nn` loads the literal; `VF` changes only as the destination. -/
def Obligations.LoadLiteral : Prop :=
  ∀ (x : Reg) (nn : Byte) (s : State), ∃ t, exec (.ldImm x nn) s = .next t ∧ t.readReg x = nn ∧
    OnlyChanges s t [.pc, .reg x]

/-- R115: `ADD Vx, nn` adds modulo 256 and touches no flag; `VF` changes only as the destination. -/
def Obligations.AddLiteralWrapsWithoutFlag : Prop :=
  ∀ (x : Reg) (nn : Byte) (s : State), ∃ t, exec (.addImm x nn) s = .next t ∧
    (t.readReg x).toNat = ((s.readReg x).toNat + nn.toNat) % 256 ∧
    OnlyChanges s t [.pc, .reg x]

/-- R116 to R119: copy, OR, AND, XOR, bit by bit; the result goes to the first register and `VF` is left
as it was unless it is the destination. -/
def Obligations.CopyAndLogic : Prop :=
  ∀ (x y : Reg) (s : State),
    (∃ t, exec (.ldReg x y) s = .next t ∧ t.readReg x = s.readReg y ∧
      OnlyChanges s t [.pc, .reg x]) ∧
    (∃ t, exec (.or x y) s = .next t ∧
      (∀ k, (t.readReg x).getLsbD k = ((s.readReg x).getLsbD k || (s.readReg y).getLsbD k)) ∧
      OnlyChanges s t [.pc, .reg x]) ∧
    (∃ t, exec (.and x y) s = .next t ∧
      (∀ k, (t.readReg x).getLsbD k = ((s.readReg x).getLsbD k && (s.readReg y).getLsbD k)) ∧
      OnlyChanges s t [.pc, .reg x]) ∧
    (∃ t, exec (.xor x y) s = .next t ∧
      (∀ k, (t.readReg x).getLsbD k = ((s.readReg x).getLsbD k != (s.readReg y).getLsbD k)) ∧
      OnlyChanges s t [.pc, .reg x])

/-- `ADD Vx, Vy`: the sum modulo 256 and the carry in `VF`; when `x` = 15 `VF` holds the carry
(R121, R113; the priority of the flag is D10).
The stride of `pc` is D2. -/
def Obligations.AddSetsCarry : Prop :=
  ∀ (x y : Reg) (s : State), ∃ t, exec (.addReg x y) s = .next t ∧
    (x ≠ 15 → (t.readReg x).toNat = ((s.readReg x).toNat + (s.readReg y).toNat) % 256) ∧
    t.readReg 15 = (if (s.readReg x).toNat + (s.readReg y).toNat > 255 then 0x01 else 0x00) ∧
    t.pc = s.pc + 2 ∧ OnlyChanges s t [.pc, .reg x, .reg 15]

/-- `SUB Vx, Vy` and `SUBN Vx, Vy`: the wrapped difference, and `VF` = 1 exactly when the minuend is
strictly greater; when `x` = 15 `VF` holds the flag (R122, R124, R113; D10, D22).
The stride of `pc` is D2. -/
def Obligations.SubtractSetsStrictlyGreater : Prop :=
  ∀ (x y : Reg) (s : State),
    (∃ t, exec (.sub x y) s = .next t ∧
      (x ≠ 15 → ((t.readReg x).toNat : Int) = ((s.readReg x).toNat - (s.readReg y).toNat : Int) % 256) ∧
      t.readReg 15 = (if (s.readReg x).toNat > (s.readReg y).toNat then 0x01 else 0x00) ∧
      t.pc = s.pc + 2 ∧ OnlyChanges s t [.pc, .reg x, .reg 15]) ∧
    (∃ t, exec (.subn x y) s = .next t ∧
      (x ≠ 15 → ((t.readReg x).toNat : Int) = ((s.readReg y).toNat - (s.readReg x).toNat : Int) % 256) ∧
      t.readReg 15 = (if (s.readReg y).toNat > (s.readReg x).toNat then 0x01 else 0x00) ∧
      t.pc = s.pc + 2 ∧ OnlyChanges s t [.pc, .reg x, .reg 15])

/-- `SHR` and `SHL`: one position, zero fill, the bit shifted out in `VF`; the source is `V[x]`, or
`V[y]` when `SHIFT_SOURCE` = `Y`; when `x` = 15 `VF` holds the flag (R123, R125, R113; D3, D10).
The stride of `pc` is D2. -/
def Obligations.ShiftsSetTheBitShiftedOut : Prop :=
  ∀ (x y : Reg) (src : Byte) (s : State),
    (s.params.shiftSource = .x ∧ src = s.readReg x ∨ s.params.shiftSource = .y ∧ src = s.readReg y) →
    (∃ t, exec (.shr x y) s = .next t ∧ (x ≠ 15 → (t.readReg x).toNat = src.toNat / 2) ∧
      (t.readReg 15).toNat = src.toNat % 2 ∧ t.pc = s.pc + 2 ∧ OnlyChanges s t [.pc, .reg x, .reg 15]) ∧
    (∃ t, exec (.shl x y) s = .next t ∧ (x ≠ 15 → (t.readReg x).toNat = 2 * src.toNat % 256) ∧
      (t.readReg 15).toNat = src.toNat / 128 ∧ t.pc = s.pc + 2 ∧ OnlyChanges s t [.pc, .reg x, .reg 15])

/-! ## The index register and data memory -/

/-- R140: `LD I, nnn` loads the zero-extended literal. -/
def Obligations.LoadIndexLiteral : Prop :=
  ∀ (nnn : Addr12) (s : State), ∃ t, exec (.ldI nnn) s = .next t ∧ t.i.toNat = nnn.toNat ∧
    OnlyChanges s t [.pc, .index]

/-- `LD I, V0+nnn` loads `I` with the sum, or under `BNNN_TARGET` = `PC` jumps to it; the sum is not
reduced modulo 4096 (R141; D13).
The stride of `pc` is D2. -/
def Obligations.OffsetLoadOrJump : Prop :=
  ∀ (nnn : Addr12) (s : State),
    (s.params.bnnnTarget = .index → ∃ t, exec (.ldIV0 nnn) s = .next t ∧
      t.i.toNat = nnn.toNat + (s.readReg 0).toNat ∧ t.pc = s.pc + 2 ∧ OnlyChanges s t [.pc, .index]) ∧
    (s.params.bnnnTarget = .pc → ∃ t, exec (.ldIV0 nnn) s = .next t ∧
      t.pc.toNat = nnn.toNat + (s.readReg 0).toNat ∧ OnlyChanges s t [.pc])

/-- `ADD I, Vx` wraps at 16 bits, not 12, and writes no flag (R142; D16).
The stride of `pc` is D2. -/
def Obligations.AddToIndexWrapsAtSixteenBits : Prop :=
  ∀ (x : Reg) (s : State), ∃ t, exec (.addI x) s = .next t ∧
    t.i.toNat = (s.i.toNat + (s.readReg x).toNat) % 65536 ∧ t.pc = s.pc + 2 ∧ OnlyChanges s t [.pc, .index]

/-- `LD F, Vx` points `I` at the glyph of the register's low four bits, accessing no memory (R143); while
the glyph table stands as reset left it, the five bytes there are that digit's (R24; D7). The bound on
`FONT_BASE` is the one the spec puts on a configuration.
The stride of `pc` is D2. -/
def Obligations.FontAddressPointsAtTheGlyph : Prop :=
  ∀ (x : Reg) (s : State), s.params.fontBase + 80 ≤ 0x200 →
    ∃ t, exec (.ldF x) s = .next t ∧ t.i.toNat = s.params.fontBase + 5 * ((s.readReg x).toNat % 16) ∧
      t.pc = s.pc + 2 ∧ OnlyChanges s t [.pc, .index] ∧
      ((∀ a < 80, s.readByte (s.params.fontBase + a) = (State.resetWith s.params).readByte (s.params.fontBase + a)) →
        some ((List.range 5).map (fun k => t.readByte (t.i.toNat + k))) = fontGlyphs[(s.readReg x).toNat % 16]?)

/-- `LD B, Vx` stores the three decimal digits at `I`, `I+1`, `I+2` and no other byte, leaving `I`; past
the end of memory it raises and stores nothing (R145, R144; D15, D24).
The stride of `pc` is D2. -/
def Obligations.BcdStoresThreeDigits : Prop :=
  ∀ (x : Reg) (s : State),
    (s.i.toNat + 3 ≤ 4096 → ∃ t, exec (.ldB x) s = .next t ∧
      (t.readByte s.i.toNat).toNat = (s.readReg x).toNat / 100 ∧
      (t.readByte (s.i.toNat + 1)).toNat = (s.readReg x).toNat / 10 % 10 ∧
      (t.readByte (s.i.toNat + 2)).toNat = (s.readReg x).toNat % 10 ∧
      OnlyStores s t s.i.toNat 3 ∧ t.pc = s.pc + 2 ∧ OnlyChanges s t [.pc, .mem]) ∧
    (4096 < s.i.toNat + 3 → exec (.ldB x) s = .fault (.outOfBounds (max s.i.toNat 4096)))

/-- `LD [I], Vx` stores `V[0]` to `V[x]` at `I` upward and no other byte, leaving `I`; past the end of
memory it raises and stores nothing (R146, R147, R144; D15, D24).
The stride of `pc` is D2. -/
def Obligations.BlockStoreWritesTheRegisters : Prop :=
  ∀ (x : Reg) (s : State),
    (s.i.toNat + x.toNat + 1 ≤ 4096 → ∃ t, exec (.ldMemVx x) s = .next t ∧
      (∀ r : Reg, r.toNat ≤ x.toNat → t.readByte (s.i.toNat + r.toNat) = s.readReg r) ∧
      OnlyStores s t s.i.toNat (x.toNat + 1) ∧ t.pc = s.pc + 2 ∧ OnlyChanges s t [.pc, .mem]) ∧
    (4096 < s.i.toNat + x.toNat + 1 → exec (.ldMemVx x) s = .fault (.outOfBounds (max s.i.toNat 4096)))

/-- `LD Vx, [I]` loads `V[0]` to `V[x]` from `I` upward, and nothing else but `pc` changes; past the end
of memory it raises and loads nothing (R146, R148, R144; D15, D24).
The stride of `pc` is D2. -/
def Obligations.BlockLoadReadsTheRegisters : Prop :=
  ∀ (x : Reg) (s : State),
    (s.i.toNat + x.toNat + 1 ≤ 4096 → ∃ t, exec (.ldVxMem x) s = .next t ∧
      (∀ r : Reg, r.toNat ≤ x.toNat → t.readReg r = s.readByte (s.i.toNat + r.toNat)) ∧
      (∀ r : Reg, x.toNat < r.toNat → t.readReg r = s.readReg r) ∧
      t.pc = s.pc + 2 ∧ ∀ p : Part, p ≠ .pc → (∀ r, p ≠ .reg r) → p.Same s t) ∧
    (4096 < s.i.toNat + x.toNat + 1 → exec (.ldVxMem x) s = .fault (.outOfBounds (max s.i.toNat 4096)))

/-- A block store followed, with `I` and memory as it left them, by a block load of the same length gives
the registers back (R146 to R148; D24). -/
def Obligations.BlockStoreThenLoadRestores : Prop :=
  ∀ (x : Reg) (s t u : State), exec (.ldMemVx x) s = .next t → u.i = t.i → (∀ a, u.readByte a = t.readByte a) →
    ∃ v, exec (.ldVxMem x) u = .next v ∧ ∀ r : Reg, r.toNat ≤ x.toNat → v.readReg r = s.readReg r

/-! ## Random, display -/

/-- `RND Vx, nn` advances the generator by the recurrence and stores the new value masked, for every
generator constant (R161, R162; that the new value is returned is D8).
The stride of `pc` is D2. -/
def Obligations.RandomStoresTheMaskedNewValue : Prop :=
  ∀ (x : Reg) (nn : Byte) (s : State), ∃ t, exec (.rnd x nn) s = .next t ∧
    t.rng.toNat = (s.params.prngMul.toNat * s.rng.toNat + s.params.prngInc.toNat) % 256 ∧
    (∀ k, (t.readReg x).getLsbD k = (t.rng.getLsbD k && nn.getLsbD k)) ∧
    t.pc = s.pc + 2 ∧ OnlyChanges s t [.pc, .reg x, .rng]

/-- R174: `CLS` unsets every pixel and writes no flag.
The stride of `pc` is D2. -/
def Obligations.ClearUnsetsEveryPixel : Prop :=
  ∀ s : State, ∃ t, exec .cls s = .next t ∧ (∀ k < 2048, pixel t.fb k = false) ∧
    t.pc = s.pc + 2 ∧ OnlyChanges s t [.pc, .fb]

/-- `DRW Vx, Vy, n` toggles exactly the pixels under the sprite's 1 bits, and `VF` is 1 exactly when one of
them was set; `n` = 0 reads no memory; past the end of memory it raises and draws nothing
(R171 to R173, R175; D4, D15, D23).
The stride of `pc` is D2. -/
def Obligations.DrawTogglesTheFootprint : Prop :=
  ∀ (x y : Reg) (n : Nibble) (s : State),
    (n = 0 ∨ s.i.toNat + n.toNat ≤ 4096 → ∃ t, exec (.drw x y n) s = .next t ∧
      (∀ k < 2048, Footprint s.params.drawEdge (spriteRows s n) (s.readReg x) (s.readReg y) k →
        pixel t.fb k = !pixel s.fb k) ∧
      (∀ k < 2048, ¬ Footprint s.params.drawEdge (spriteRows s n) (s.readReg x) (s.readReg y) k →
        pixel t.fb k = pixel s.fb k) ∧
      ((t.readReg 15 = 0x01 ∧
          ∃ k < 2048, Footprint s.params.drawEdge (spriteRows s n) (s.readReg x) (s.readReg y) k ∧ pixel s.fb k = true) ∨
       (t.readReg 15 = 0x00 ∧
          ∀ k < 2048, Footprint s.params.drawEdge (spriteRows s n) (s.readReg x) (s.readReg y) k → pixel s.fb k = false)) ∧
      t.pc = s.pc + 2 ∧ OnlyChanges s t [.pc, .reg 15, .fb]) ∧
    (n ≠ 0 → 4096 < s.i.toNat + n.toNat → exec (.drw x y n) s = .fault (.outOfBounds (max s.i.toNat 4096)))

/-- Drawing the same sprite again at the same place restores the framebuffer, and `VF` then reports the
pixels the first draw set (R175, R176). The second state is any that still holds the sprite, the
coordinates and the framebuffer of the first draw. -/
def Obligations.DrawTwiceRestores : Prop :=
  ∀ (x y : Reg) (n : Nibble) (s t u : State), exec (.drw x y n) s = .next t →
    u.fb = t.fb → u.i = s.i → u.params = s.params → (∀ a, u.readByte a = s.readByte a) →
    u.readReg x = s.readReg x → u.readReg y = s.readReg y →
    ∃ v, exec (.drw x y n) u = .next v ∧ v.fb = s.fb ∧
      (v.readReg 15 = 0x01 ↔
        ∃ k, Footprint s.params.drawEdge (spriteRows s n) (s.readReg x) (s.readReg y) k ∧ pixel s.fb k = false)

/-! ## Keys and timers -/

/-- `LD Vx, K` records the register, looks at no key and writes no register (R196).
The stride of `pc` is D2. -/
def Obligations.AwaitKeyRecordsTheRegister : Prop :=
  ∀ (x : Reg) (s : State), ∃ t, exec (.ldVxK x) s = .next t ∧ t.wait = .awaitingKey x ∧
    t.pc = s.pc + 2 ∧ OnlyChanges s t [.pc, .wait]

/-- R200: `LD Vx, DT` copies the delay timer as it stands before the step's decrement.
The stride of `pc` is D2. -/
def Obligations.ReadDelayTimer : Prop :=
  ∀ (x : Reg) (s : State), ∃ t, exec (.ldVxDt x) s = .next t ∧ t.readReg x = s.dt ∧
    t.pc = s.pc + 2 ∧ OnlyChanges s t [.pc, .reg x]

/-- `LD DT, Vx` and `LD ST, Vx` set a timer from a register (R201, R202).
The stride of `pc` is D2. -/
def Obligations.WriteTimers : Prop :=
  ∀ (x : Reg) (s : State),
    (∃ t, exec (.ldDtVx x) s = .next t ∧ t.dt = s.readReg x ∧ t.pc = s.pc + 2 ∧ OnlyChanges s t [.pc, .dt]) ∧
    (∃ t, exec (.ldStVx x) s = .next t ∧ t.st = s.readReg x ∧ t.pc = s.pc + 2 ∧ OnlyChanges s t [.pc, .st])

/-- A step that writes a timer decrements it once before it returns, and the buzzer sounds afterwards
exactly when `ST` is still nonzero (R71, R201, R202, R208, R256). -/
def Obligations.WrittenTimerIsDecrementedInItsStep : Prop :=
  ∀ (x : Reg) (s : State), s.wait = .running →
    (s.fetchDecode = .ok (.ldDtVx x) → ∃ t, step s = .next t ∧ t.dt.toNat = (s.readReg x).toNat - 1) ∧
    (s.fetchDecode = .ok (.ldStVx x) → ∃ t, step s = .next t ∧ t.st.toNat = (s.readReg x).toNat - 1 ∧
      (t.beep = true ↔ 2 ≤ (s.readReg x).toNat))

/-- R206: every completed real step ends with one decrement of each nonzero timer, to the value the
instruction left; a wait tick leaves both; a step that raises has no next state. -/
def Obligations.TimersCountRealSteps : Prop :=
  ∀ s t : State, step s = .next t →
    (∀ i u, s.wait = .running → s.fetchDecode = .ok i → exec i s = .next u →
      t.dt.toNat = u.dt.toNat - 1 ∧ t.st.toNat = u.st.toNat - 1) ∧
    (s.wait ≠ .running → t.dt = s.dt ∧ t.st = s.st)

/-! ## The host's operations -/

/-- `load_program`: a program that fits is written from the program start and changes nothing else; one that
does not is refused and changes nothing (R40; the program start is D6, that only memory changes D21). -/
def Obligations.LoadProgramRoundTrip : Prop :=
  ∀ (bytes : List Byte) (s : State),
    (bytes.length ≤ memSize - programStart → ∃ t, hostLoadProgram bytes s = (t, .ok) ∧
      (∀ k b, bytes[k]? = some b → t.readByte (programStart + k) = b) ∧
      OnlyStores s t programStart bytes.length ∧ OnlyChanges s t [.mem]) ∧
    (memSize - programStart < bytes.length → hostLoadProgram bytes s = (s, .error .capacityExceeded))

/-- `reset` puts every piece of state at its value of R23 whatever the state before (R250; the numbers are
D6, D7, D17). -/
def Obligations.ResetPutsEveryValue : Prop :=
  ∀ s t : State, t = hostReset s →
    (∀ r, t.readReg r = 0x00) ∧ t.pc = 0x0200 ∧ t.i = 0x0000 ∧ t.sp = 0 ∧
    t.stack = List.replicate s.params.stackDepth 0x0000 ∧ t.dt = 0x00 ∧ t.st = 0x00 ∧
    (∀ k, pixel t.fb k = false) ∧ t.wait = .running ∧ t.rng = s.params.prngSeed ∧ t.params = s.params ∧
    (∀ d j, d < 16 → j < 5 → fontGlyphs[d]?.bind (·[j]?) = some (t.readByte (s.params.fontBase + 5 * d + j))) ∧
    (∀ a, a < s.params.fontBase ∨ s.params.fontBase + 80 ≤ a → t.readByte a = 0x00)

/-- Ticking without a program is defined: after reset every tick returns `Undecodable(0x0000)`, under every
configuration the spec allows and with every snapshot (R253). -/
def Obligations.TickWithoutProgramIsUndecodable : Prop :=
  ∀ (p : Params) (keys : Keypad), p.wellFormed = true →
    hostTick keys (State.resetWith p) = (State.resetWith p, .error (.undecodable 0x0000))

/-- `get_opcode` answers what the next real step does, and ignores `WAIT` (R238; its error type is D18). -/
def Obligations.PeekPredictsTheStep : Prop :=
  ∀ s : State,
    (∀ w, hostGetOpcode (s.setWait w) = hostGetOpcode s) ∧
    (∀ e, s.wait = .running → hostGetOpcode s = .error e → step s = .fault e) ∧
    (∀ i t, s.wait = .running → hostGetOpcode s = .ok i → exec i s = .next t →
      step s = .next t.timersStep.consumeKey)
end

