-- ==== Sys2Proof/Tests/Slice0.lean ====
section
/-! SUPPORT. Tests of the model against the words of R55 and the vectors of spec/95_test_vectors.md, and for each
statement with hypotheses a witness that meets them. Every expected value is the spec's. -/

namespace Sys2Proof.Tests

open Sys2Proof Sys2Proof.Machine

/-! ## Helpers -/

/-- The illustrative generator constants of spec/95_test_vectors.md: 5, 3 and seed 1. -/
def params : Params := { defaultParams with prngMul := 5, prngInc := 3, prngSeed := 1 }

/-- Reset, with no key pressed in the next two ticks. -/
def base : State := { State.resetWith params with keyFeed := [0, 0] }

/-- Registers written from a list of (index, value). -/
def regs (s : State) : List (Reg × Byte) → State
  | [] => s
  | p :: ps => regs (s.writeReg p.1 p.2) ps

/-- Bytes placed in memory. -/
def bytes (s : State) (a : Nat) (bs : List Byte) : State :=
  s.setMem (Memory.writeBytes s.params.fontBase s.mem a bs)

/-- One view of the state after a step that runs the word `w`. -/
def after {α : Type} (w : Nat) (s : State) (view : State → α) : Option α :=
  match step (s.withFetchWord 16 w) with
  | .next t => some (view t)
  | .fault _ => none
  | .refused _ => none

/-- One view of the state after a step from `s` as it stands. -/
def stepped {α : Type} (s : State) (view : State → α) : Option α :=
  match step s with
  | .next t => some (view t)
  | .fault _ => none
  | .refused _ => none

/-- The error of a step that runs the word `w`. -/
def errorOf (w : Nat) (s : State) : Option Fault :=
  match step (s.withFetchWord 16 w) with
  | .next _ => none
  | .fault e => some e
  | .refused _ => none

/-- The byte at an address after the step, and `I`. -/
def bytesAt (a n : Nat) (t : State) : List Byte := (List.range n).map (fun k => t.readByte (a + k))

/-- The set pixels among some indices. -/
def lit (ks : List Nat) (t : State) : List Nat := ks.filter (pixel t.fb)

/-- A framebuffer with the given pixels set. -/
def canvas (ks : List Nat) : FrameBuffer := ks.foldl togglePixel clearFb

/-! ## Well-formedness refuses what is ill-formed -/

/-- R7 with R31: `FONT_BASE` + 80 must not pass the program start; 432 is the last value that fits. -/
theorem test_params_font_too_high : Params.wellFormed { params with fontBase := 433 } = false := by decide
theorem test_params_font_last_fit : Params.wellFormed { params with fontBase := 432 } = true := by decide
/-- R15: the stack has at least one slot. -/
theorem test_params_no_stack : Params.wellFormed { params with stackDepth := 0 } = false := by decide
/-- R51: a 4-bit field holds no 16, an 8-bit field no 256, a 12-bit field no 4096. -/
theorem test_field_nibble_too_wide : OperandField.wellFormed ⟨11, 8, 16⟩ = false := by decide
theorem test_field_byte_too_wide : OperandField.wellFormed ⟨7, 0, 256⟩ = false := by decide
theorem test_field_address_too_wide : OperandField.wellFormed ⟨11, 0, 4096⟩ = false := by decide
/-- T2: 3584 bytes fit, 3585 do not. -/
theorem test_program_fits : programFits (List.replicate 3584 0) = true := by
  rw [programFits, List.length_replicate]; rfl
theorem test_program_too_long : programFits (List.replicate 3585 0) = false := by
  rw [programFits, List.length_replicate]; rfl

/-! ## Decoding: each constructor from a word written out from R55 -/

theorem test_decode_control :
    decode 0b0000000011100000 = some .cls ∧ decode 0b0000000011101110 = some .ret ∧
    decode 0b0001101010111100 = some (.jp 0xABC) ∧ decode 0b0010001100000000 = some (.call 0x300) := by decide

theorem test_decode_skips :
    decode 0b0011001100101010 = some (.seImm 3 0x2A) ∧ decode 0b0100001100101010 = some (.sneImm 3 0x2A) ∧
    decode 0b0101000100100000 = some (.seReg 1 2) ∧ decode 0b1001000100100000 = some (.sneReg 1 2) ∧
    decode 0b1110000110011110 = some (.skp 1) ∧ decode 0b1110000110100001 = some (.sknp 1) := by decide

theorem test_decode_literals :
    decode 0b0110111110101011 = some (.ldImm 15 0xAB) ∧ decode 0b0111001000000001 = some (.addImm 2 1) ∧
    decode 0b1100000100001111 = some (.rnd 1 0x0F) := by decide

theorem test_decode_group8 :
    decode 0b1000000100100000 = some (.ldReg 1 2) ∧ decode 0b1000000100100001 = some (.or 1 2) ∧
    decode 0b1000000100100010 = some (.and 1 2) ∧ decode 0b1000000100100011 = some (.xor 1 2) ∧
    decode 0b1000000100100100 = some (.addReg 1 2) ∧ decode 0b1000000100100101 = some (.sub 1 2) ∧
    decode 0b1000000100100110 = some (.shr 1 2) ∧ decode 0b1000000100100111 = some (.subn 1 2) ∧
    decode 0b1000000100101110 = some (.shl 1 2) := by decide

theorem test_decode_index_and_draw :
    decode 0b1010000100100011 = some (.ldI 0x123) ∧ decode 0b1011001100000000 = some (.ldIV0 0x300) ∧
    decode 0b1101111100010101 = some (.drw 15 1 5) := by decide

theorem test_decode_groupF :
    decode 0b1111000100000111 = some (.ldVxDt 1) ∧ decode 0b1111001100001010 = some (.ldVxK 3) ∧
    decode 0b1111000100010101 = some (.ldDtVx 1) ∧ decode 0b1111000100011000 = some (.ldStVx 1) ∧
    decode 0b1111000100011110 = some (.addI 1) ∧ decode 0b1111000100101001 = some (.ldF 1) ∧
    decode 0b1111000100110011 = some (.ldB 1) ∧ decode 0b1111001001010101 = some (.ldMemVx 2) ∧
    decode 0b1111001001100101 = some (.ldVxMem 2) := by decide

/-- The undecodable words of section 2.7. -/
theorem test_decode_rejects : ([0x0000, 0x0123, 0x00E1, 0x5121, 0x8128, 0x812F, 0x9121, 0xE19F, 0xF100, 0xF175,
    0xFFFF] : List Word).all (fun w => (decode w).isNone) = true := by decide

/-- R32: the byte at the lower address is the high one; the table numbers the whole word. -/
theorem test_table_word : decodeTableWord 16 0x6005 = some (.ldImm 0 5) ∧ decodeTableWord 16 0x0560 = none := by decide

/-! ## One step of each instruction (sections 2.1 to 2.6 and 4) -/

theorem test_jp : after 0x1ABC base State.pc = some 0xABC := by decide
theorem test_call : after 0x2300 base (fun t => (t.pc, t.sp, t.stack.head?)) = some (0x300, 1, some 0x200) := by decide
theorem test_call_overflow : errorOf 0x2300 { base with sp := 16 } = some .stackOverflow := by decide
theorem test_ret : after 0x00EE { base with sp := 1, stack := 0x204 :: List.replicate 15 0, pc := 0x300 }
    (fun t => (t.pc, t.sp)) = some (0x206, 0) := by decide
theorem test_ret_underflow : errorOf 0x00EE base = some .stackUnderflow := by decide
theorem test_seImm : after 0x332A (regs base [(3, 0x2A)]) State.pc = some 0x204 := by decide
/-- A skip at the top of memory leaves `pc` past the end. -/
theorem test_seImm_top : after 0x3000 { base with pc := 0xFFE } State.pc = some 0x1002 := by decide
theorem test_sneImm : after 0x432A (regs base [(3, 0x2A)]) State.pc = some 0x202 := by decide
theorem test_seReg : after 0x5120 (regs base [(1, 7), (2, 8)]) State.pc = some 0x202 := by decide
theorem test_sneReg : after 0x9120 (regs base [(1, 7), (2, 8)]) State.pc = some 0x204 := by decide
theorem test_ldImm : after 0x6FAB (regs base [(15, 1)]) (fun t => (t.readReg 15, t.pc)) = some (0xAB, 0x202) := by decide
theorem test_addImm_wraps : after 0x7201 (regs base [(2, 0xFF), (15, 0)]) (fun t => (t.readReg 2, t.readReg 15)) =
    some (0x00, 0x00) := by decide
theorem test_ldReg : after 0x8120 (regs base [(2, 0x7C)]) (fun t => (t.readReg 1, t.readReg 2)) = some (0x7C, 0x7C) := by decide
theorem test_or : after 0x8121 (regs base [(1, 0xF0), (2, 0x3C), (15, 1)]) (fun t => (t.readReg 1, t.readReg 15)) =
    some (0xFC, 1) := by decide
theorem test_and : after 0x8122 (regs base [(1, 0xF0), (2, 0x3C), (15, 1)]) (fun t => (t.readReg 1, t.readReg 15)) =
    some (0x30, 1) := by decide
theorem test_xor : after 0x8123 (regs base [(1, 0xF0), (2, 0x3C), (15, 1)]) (fun t => (t.readReg 1, t.readReg 15)) =
    some (0xCC, 1) := by decide
/-- T5. -/
theorem test_addReg : after 0x8124 (regs base [(1, 250), (2, 10)]) (fun t => (t.readReg 1, t.readReg 15)) = some (4, 1) := by decide
/-- The flag is written last: the sum `0x2C` is lost. -/
theorem test_addReg_flag_wins : after 0x8F14 (regs base [(15, 0xC8), (1, 0x64)]) (fun t => t.readReg 15) = some 1 := by decide
theorem test_sub_wraps : after 0x8125 (regs base [(1, 3), (2, 5)]) (fun t => (t.readReg 1, t.readReg 15)) = some (0xFE, 0) := by decide
theorem test_sub_equal : after 0x8125 (regs base [(1, 7), (2, 7), (15, 1)]) (fun t => (t.readReg 1, t.readReg 15)) =
    some (0, 0) := by decide
theorem test_subn : after 0x8127 (regs base [(1, 3), (2, 5)]) (fun t => (t.readReg 1, t.readReg 15)) = some (2, 1) := by decide
theorem test_shr : after 0x8126 (regs base [(1, 5), (2, 0xFF)]) (fun t => (t.readReg 1, t.readReg 15)) = some (2, 1) := by decide
theorem test_shr_y : after 0x8126 (regs { base with params := { params with shiftSource := .y } } [(1, 5), (2, 0xFF)])
    (fun t => (t.readReg 1, t.readReg 15, t.readReg 2)) = some (0x7F, 1, 0xFF) := by decide
theorem test_shl : after 0x812E (regs base [(1, 0x81), (2, 0x40)]) (fun t => (t.readReg 1, t.readReg 15)) = some (2, 1) := by decide
theorem test_shl_y : after 0x812E (regs { base with params := { params with shiftSource := .y } } [(1, 0x81), (2, 0x40)])
    (fun t => (t.readReg 1, t.readReg 15)) = some (0x80, 0) := by decide
theorem test_ldI : after 0xA123 base State.i = some 0x123 := by decide
theorem test_ldIV0 : after 0xBFFF (regs base [(0, 0xFF)]) (fun t => (t.i, t.pc)) = some (0x10FE, 0x202) := by decide
theorem test_ldIV0_pc : after 0xB300 (regs { base with params := { params with bnnnTarget := .pc } } [(0, 0x10)])
    (fun t => (t.i, t.pc)) = some (0, 0x310) := by decide
theorem test_addI : after 0xF11E (regs { base with i := 0x0FFF } [(1, 1)]) State.i = some 0x1000 := by decide
theorem test_addI_wraps : after 0xF11E (regs { base with i := 0xFFFF } [(1, 1), (15, 1)]) (fun t => (t.i, t.readReg 15)) =
    some (0, 1) := by decide
theorem test_ldF : after 0xF129 (regs base [(1, 0xFA)]) State.i = some 0x32 := by decide
theorem test_ldF_base : after 0xF129 (regs { base with params := { params with fontBase := 0x50 } } [(1, 0x0A)]) State.i =
    some 0x82 := by decide
theorem test_ldB : after 0xF133 (regs { base with i := 0xFFD } [(1, 0xFF)]) (fun t => (bytesAt 0xFFD 3 t, t.i)) =
    some ([2, 5, 5], 0xFFD) := by decide
theorem test_ldB_bounds : errorOf 0xF133 (regs { base with i := 0xFFE } [(1, 0xFF)]) = some (.outOfBounds 0x1000) := by decide
theorem test_ldMemVx : after 0xF255 (regs { base with i := 0x400 } [(0, 0x11), (1, 0x22), (2, 0x33), (3, 0x44)])
    (fun t => (bytesAt 0x400 4 t, t.i)) = some ([0x11, 0x22, 0x33, 0], 0x400) := by decide
theorem test_ldMemVx_bounds : errorOf 0xF155 { base with i := 0xFFF } = some (.outOfBounds 0x1000) := by decide
theorem test_ldVxMem : after 0xF265 (regs (bytes { base with i := 0x400 } 0x400 [0xAA, 0xBB, 0xCC, 0xDD]) [(3, 0x77)])
    (fun t => (t.readReg 0, t.readReg 1, t.readReg 2, t.readReg 3, t.i)) = some (0xAA, 0xBB, 0xCC, 0x77, 0x400) := by decide
/-- Unwritten memory holds glyph 0 at address 0. -/
theorem test_ldVxMem_font : after 0xF465 base (fun t => [t.readReg 0, t.readReg 1, t.readReg 2, t.readReg 3, t.readReg 4]) =
    some [0xF0, 0x90, 0x90, 0x90, 0xF0] := by decide
theorem test_rnd : after 0xC10F { base with rng := 0x08 } (fun t => (t.readReg 1, t.rng)) = some (0x0B, 0x2B) := by decide
theorem test_rnd_flag : after 0xCFFF { base with rng := 0xFF } (fun t => (t.readReg 15, t.rng)) = some (0xFE, 0xFE) := by decide
theorem test_cls : after 0x00E0 { base with fb := canvas [0, 5, 2047] } (fun t => (lit [0, 5, 2047] t, t.pc)) =
    some ([], 0x202) := by decide
theorem test_drw_collision : after 0xD121 { base with fb := canvas [0, 65] }
    (fun t => (lit [0, 1, 2, 3, 4, 64, 65] t, t.readReg 15)) = some ([1, 2, 3, 65], 1) := by decide
theorem test_drw_wraps : after 0xD122 (regs (bytes { base with i := 0x300 } 0x300 [0xFF, 0x81]) [(1, 60), (2, 31)])
    (fun t => (lit [0, 3, 4, 59, 60, 61, 64, 124, 1983, 1984, 1987, 1988, 2043, 2044, 2047] t, t.readReg 15)) =
    some ([3, 60, 1984, 1987, 2044, 2047], 0) := by decide
theorem test_skp : after 0xE19E (regs { base with keyFeed := [0x0400] } [(1, 0x1A)]) State.pc = some 0x204 := by decide
theorem test_skp_other : after 0xE19E (regs { base with keyFeed := [0x0800] } [(1, 0x0A)]) State.pc = some 0x202 := by decide
theorem test_sknp : after 0xE1A1 (regs { base with keyFeed := [0x0400] } [(1, 0x0A)]) State.pc = some 0x202 := by decide
theorem test_ldVxDt : after 0xF107 { base with dt := 7 } (fun t => (t.readReg 1, t.dt)) = some (7, 6) := by decide
theorem test_ldDtVx : after 0xF115 (regs base [(1, 2)]) State.dt = some 1 := by decide
theorem test_ldDtVx_zero : after 0xF115 (regs { base with dt := 9 } [(1, 0)]) State.dt = some 0 := by decide
theorem test_ldStVx : after 0xF118 (regs { base with st := 5, dt := 1 } [(1, 1)]) (fun t => (t.st, t.dt)) = some (0, 0) := by decide
/-- A key already held does not end the wait in the step that starts it. -/
theorem test_ldVxK : after 0xF30A { base with dt := 3, keyFeed := [0x0010] } (fun t => (t.wait, t.dt, t.pc)) =
    some (.awaitingKey 3, 2, 0x202) := by decide

/-! ## The wait tick, the timers and the host -/

/-- A waiting machine of section 2.6. -/
def waiting (p : Params) (keys : Keypad) : State :=
  { regs { base with params := p } [(3, 0xEE)] with wait := .awaitingKey 3, pc := 0x202, dt := 2, st := 1, keyFeed := [keys] }

theorem test_wait_lowest : stepped (waiting params 0x8204) (fun t => (t.readReg 3, t.wait, t.pc, t.dt, t.st)) =
    some (2, .running, 0x202, 2, 1) := by decide
theorem test_wait_none : stepped (waiting params 0) (fun t => (t.readReg 3, t.wait, t.pc, t.dt, t.st)) =
    some (0xEE, .awaitingKey 3, 0x202, 2, 1) := by decide
theorem test_wait_regValue : stepped (regs (waiting { params with keyWaitPolicy := .regValue } 0x0014) [(3, 4)])
    (fun t => (t.readReg 3, t.wait)) = some (4, .running) := by decide
theorem test_wait_regIndex : stepped (waiting { params with keyWaitPolicy := .regIndex } 0x0004)
    (fun t => (t.readReg 3, t.wait)) = some (0xEE, .awaitingKey 3) := by decide
/-- T6, its first tick. -/
theorem test_timer_decay : after 0x1200 { base with dt := 2, st := 1 } (fun t => (t.dt, t.st, t.beep)) = some (1, 0, false) := by decide
/-- Section 2.7: a fetch past the end reports the lowest offending address. -/
theorem test_fetch_bounds :
    State.fetchDecode { base with pc := 0xFFF } = .error (.outOfBounds 0x1000) ∧
    State.fetchDecode { base with pc := 0xFFFF } = .error (.outOfBounds 0xFFFF) := ⟨rfl, rfl⟩
/-- T2: the loaded bytes stand at the program start. -/
theorem test_load : bytesAt 0x1FF 6 (hostLoadProgram [0x60, 0x05, 0x70, 0x03] base).1 = [0, 0x60, 0x05, 0x70, 0x03, 0] := by decide
/-- T1. -/
theorem test_reset : (State.reset.pc, State.reset.i, State.reset.sp, State.reset.dt, State.reset.st, bytesAt 75 6 State.reset) =
    (0x200, 0, 0, 0, 0, [0xF0, 0x80, 0xF0, 0x80, 0x80, 0]) := by decide

/-! ## Witnesses: states and operands that meet a statement's hypotheses, each clause at a boundary -/

/-- `base` about to run the word `w` at address `a`. -/
def running (w : Nat) (a : Word := 0x200) (s : State := base) : State := State.withFetchWord { s with pc := a } 16 w

theorem witness_DecodeOfEncode : Instr.wellFormed (.drw 15 15 15) = true ∧ Instr.wellFormed (.jp 0xFFF) = true := by decide
theorem witness_EncodeOfDecode : decode 0x81FE = some (.shl 1 15) := by decide
theorem witness_OpcodeRowsAreDisjoint : (⟨34, 0xF065, 0xF0FF⟩ : OpcodeRow) ∈ opcodeRows ∧
    OpcodeRow.selects ⟨34, 0xF065, 0xF0FF⟩ 0xFF65 = true := by decide

/-- The last address a fetch can read from, for both clauses: an instruction that completes and one that raises. -/
theorem witness_StepRunsTheDecodedInstruction :
    (∃ s i t, s.wait = .running ∧ s.pc.toNat = 0xFFE ∧
      decode (s.readByte s.pc.toNat ++ s.readByte (s.pc.toNat + 1)) = some i ∧ exec i s = .next t) ∧
    (∃ s i e, s.wait = .running ∧ s.pc.toNat = 0xFFE ∧
      decode (s.readByte s.pc.toNat ++ s.readByte (s.pc.toNat + 1)) = some i ∧ exec i s = .fault e) :=
  ⟨⟨running 0x6005 0xFFE, .ldImm 0 5, _, by decide, by decide, by decide, rfl⟩,
   ⟨running 0x00EE 0xFFE, .ret, .stackUnderflow, by decide, by decide, by decide, rfl⟩⟩

theorem witness_FetchReadsTwoBytesOrReports :
    (State.pc { base with pc := 0xFFE }).toNat ≤ 0xFFE ∧ (State.pc { base with pc := 0xFFF }).toNat = 4095 ∧
    4096 ≤ (State.pc { base with pc := 0x1000 }).toNat := by decide

theorem witness_StepRaisesFetchAndDecodeErrors :
    (∃ s : State, s.wait = .running ∧ s.pc.toNat = 0xFFF) ∧
    (∃ (s : State) (w : Word), s.wait = .running ∧ s.fetch = .ok w ∧ decode w = none) :=
  ⟨⟨{ base with pc := 0xFFF }, by decide, by decide⟩, ⟨running 0x8128, 0x8128, by decide, rfl, by decide⟩⟩

/-- Each alternative of the conclusion is reached. -/
theorem witness_StepErrorsAreTheListedOnes :
    step { base with pc := 0xFFF } = .fault (.outOfBounds 4096) ∧ step (running 0x5121) = .fault (.undecodable 0x5121) ∧
    step (running 0x2300 0x200 { base with sp := 16 }) = .fault .stackOverflow ∧ step (running 0x00EE) = .fault .stackUnderflow ∧
    step (running 0xD121 0x200 { base with i := 0x1000 }) = .fault (.outOfBounds 4096) ∧
    step (running 0xF133 0x200 { base with i := 0xFFE }) = .fault (.outOfBounds 4096) ∧
    step (running 0xF055 0x200 { base with i := 0xFFFF }) = .fault (.outOfBounds 65535) ∧
    step (running 0xFF65 0x200 { base with i := 0xFF1 }) = .fault (.outOfBounds 4096) :=
  ⟨rfl, rfl, rfl, rfl, rfl, rfl, rfl, rfl⟩

theorem witness_TwentyEightInstructionsAlwaysComplete : ∃ i : Instr, (∀ nnn, i ≠ .call nnn) ∧ i ≠ .ret ∧
    (∀ x y n, i ≠ .drw x y n) ∧ (∀ x, i ≠ .ldB x) ∧ (∀ x, i ≠ .ldMemVx x) ∧ (∀ x, i ≠ .ldVxMem x) :=
  ⟨.cls, by simp, by simp, by simp, by simp, by simp, by simp⟩

theorem witness_ErrorTickChangesNothingAndRecurs :
    hostTick 0xFFFF (running 0x00EE) = (running 0x00EE, .error .stackUnderflow) := rfl

theorem witness_PlacedWordIsFetchedNext : 0xFFFF < 65536 ∧ (State.pc { base with pc := 0xFFE }).toNat ≤ 0xFFE := by decide

/-- The least key is the highest one, and no key at all. -/
theorem witness_WaitTickTakesTheLowestKey :
    (∃ (s : State) (r : Reg), s.wait = .awaitingKey r ∧ s.params.keyWaitPolicy = .anyLowest ∧
      s.key.getLsbD 15 = true ∧ ∀ j < 15, s.key.getLsbD j = false) ∧
    (∃ (s : State) (r : Reg), s.wait = .awaitingKey r ∧ s.params.keyWaitPolicy = .anyLowest ∧ s.key = 0) :=
  ⟨⟨waiting params 0x8000, 3, rfl, rfl, by decide, by decide⟩, ⟨waiting params 0, 3, rfl, rfl, rfl⟩⟩

/-- Both policies, pressed and not pressed; under `RegValue` the register's high bits are ignored. -/
theorem witness_WaitTickUnderTheOtherPolicies :
    (∃ s : State, s.wait = .awaitingKey 3 ∧ s.params.keyWaitPolicy = .regValue ∧ (s.readReg 3).toNat % 16 = 14 ∧
      s.key.getLsbD 14 = true) ∧
    (∃ s : State, s.wait = .awaitingKey 3 ∧ s.params.keyWaitPolicy = .regValue ∧ (s.readReg 3).toNat % 16 = 14 ∧
      s.key.getLsbD 14 = false) ∧
    (∃ s : State, s.wait = .awaitingKey 3 ∧ s.params.keyWaitPolicy = .regIndex ∧ s.key.getLsbD 3 = true) ∧
    (∃ s : State, s.wait = .awaitingKey 3 ∧ s.params.keyWaitPolicy = .regIndex ∧ s.key.getLsbD 3 = false) :=
  ⟨⟨waiting { params with keyWaitPolicy := .regValue } 0x4000, rfl, rfl, by decide, by decide⟩,
   ⟨waiting { params with keyWaitPolicy := .regValue } 0xBFFF, rfl, rfl, by decide, by decide⟩,
   ⟨waiting { params with keyWaitPolicy := .regIndex } 0x0008, rfl, rfl, by decide⟩,
   ⟨waiting { params with keyWaitPolicy := .regIndex } 0xFFF7, rfl, rfl, by decide⟩⟩

/-- The offset load, under the default target. -/
theorem witness_OtherInstructionsAdvanceByTwo : ∃ t, exec (.ldIV0 0xFFF) { base with pc := 0xFFFF } = .next t ∧
    (Instr.ldIV0 0xFFF).row ∉ [2, 3, 4, 5, 6, 7, 19, 24, 25] ∧ base.params.bnnnTarget = .index := ⟨_, rfl, by decide, rfl⟩

/-- A step that starts a wait, and one that does not. -/
theorem witness_OnlyAwaitKeyStartsAWait :
    (∃ s t, State.wait s = .running ∧ step s = .next t ∧ s.fetchDecode = .ok (.ldVxK 15)) ∧
    (∃ s t, State.wait s = .running ∧ step s = .next t ∧ s.fetchDecode = .ok (.jp 0xFFF)) :=
  ⟨⟨running 0xFF0A, _, rfl, rfl, rfl⟩, ⟨running 0x1FFF, _, rfl, rfl, rfl⟩⟩

theorem witness_AccessMatrixWrites : ∃ t, exec (.ldVxMem 15) { base with i := 0xFF0 } = .next t := ⟨_, rfl⟩

/-- Two states that differ in a part the instruction does not read, both completing and both raising. -/
theorem witness_AccessMatrixReads :
    (∀ p ∈ readParts base.params (.addReg 1 2), p.Same base (regs base [(3, 7)])) ∧ base.readReg 3 ≠ (regs base [(3, 7)]).readReg 3 ∧
    (∀ p ∈ readParts base.params .ret, p.Same base (regs base [(3, 7)])) := by
  refine ⟨?_, by decide, ?_⟩ <;> intro p hp <;> simp [readParts] at hp
  · rcases hp with rfl | rfl | rfl | rfl <;> rfl
  · rcases hp with rfl | rfl | rfl <;> first | rfl | exact ⟨rfl, rfl⟩

/-- The invariant of a state that holds a full configuration: used by the three statements about it. -/
theorem base_Inv (w : Nat) (h : w = 0x2300 ∨ w = 0xF055) : (running w).Inv := by
  rcases h with rfl | rfl <;> exact ⟨by decide, by decide, rfl, by decide,
    fun _ hw => List.eq_of_mem_replicate (n := 16) hw ▸ Nat.zero_le _, by decide⟩

theorem witness_InvariantKeptByEveryStep : ∃ s t, State.Inv s ∧ step s = .next t :=
  ⟨running 0x2300, _, base_Inv _ (.inl rfl), rfl⟩

/-- The highest glyph table and the shallowest stack. -/
theorem witness_InvariantHoldsAfterReset : Params.wellFormed { params with fontBase := 432, stackDepth := 1 } = true := by decide

theorem witness_InvariantKeptByHostOperations : State.Inv (running 0xF055) := base_Inv _ (.inr rfl)

/-- The flag register as destination, and a draw. -/
theorem witness_FlagInstructionsLeaveZeroOrOne :
    (∃ t, exec (.shl 15 15) base = .next t) ∧ (∃ t, exec (.drw 15 0 15) { base with i := 0xFF1 } = .next t) := ⟨⟨_, rfl⟩, ⟨_, rfl⟩⟩

theorem witness_TimersRiseOnlyWhenWritten :
    (∃ s t, step s = .next t ∧ s.fetchDecode = .ok (.ldVxDt 1)) ∧ (∃ s t, step s = .next t ∧ State.wait s ≠ .running) :=
  ⟨⟨running 0xF107, _, rfl, rfl⟩, ⟨waiting params 0, _, rfl, by decide⟩⟩

theorem witness_GeneratorAdvancesOnlyByRnd :
    (∃ s t, step s = .next t ∧ s.fetchDecode = .ok (.rnd 15 0)) ∧ (∃ s t, step s = .next t ∧ State.wait s ≠ .running) :=
  ⟨⟨running 0xCF00, _, rfl, rfl⟩, ⟨waiting params 0, _, rfl, by decide⟩⟩

theorem witness_SelfJumpChangesOnlyTimers : (running 0x1FFE 0xFFE).wait = .running ∧
    (running 0x1FFE 0xFFE).fetchDecode = .ok (.jp 0xFFE) ∧ (running 0x1FFE 0xFFE).pc.toNat = (0xFFE : Addr12).toNat :=
  ⟨rfl, rfl, rfl⟩

/-- The last free frame, and no frame. -/
theorem witness_CallPushesItsOwnAddress : base.stack.length = base.params.stackDepth ∧
    (15 < base.params.stackDepth) ∧ (State.sp { base with sp := 16 } = base.params.stackDepth) := by decide

/-- The deepest frame, and none. -/
theorem witness_ReturnResumesAfterTheCall : (State.sp { base with sp := 16 } ≤ base.params.stackDepth) ∧
    (State.stack { base with sp := 16 })[16 - 1]? = some 0 ∧ base.sp = 0 := by decide

theorem witness_CallThenReturnComesBack : ∃ t u : State, base.stack.length = base.params.stackDepth ∧
    exec (.call 0xFFF) base = .next t ∧ u.stack = t.stack ∧ u.sp = t.sp := ⟨_, _, rfl, rfl, rfl, rfl⟩

theorem witness_ShiftsSetTheBitShiftedOut : base.params.shiftSource = .x ∧
    (State.params { base with params := { params with shiftSource := .y } }).shiftSource = .y := ⟨rfl, rfl⟩

theorem witness_OffsetLoadOrJump : base.params.bnnnTarget = .index ∧
    (State.params { base with params := { params with bnnnTarget := .pc } }).bnnnTarget = .pc := ⟨rfl, rfl⟩

/-- The highest glyph table the spec allows, as reset leaves it. -/
theorem witness_FontAddressPointsAtTheGlyph : ∃ s : State, s.params.fontBase = 432 ∧ s.params.fontBase + 80 ≤ 0x200 ∧
    ∀ a < 80, s.readByte (s.params.fontBase + a) = (State.resetWith s.params).readByte (s.params.fontBase + a) :=
  ⟨State.resetWith { params with fontBase := 432 }, rfl, by decide, fun _ _ => rfl⟩

theorem witness_BcdStoresThreeDigits : (State.i { base with i := 0xFFD }).toNat + 3 ≤ 4096 ∧
    4096 < (State.i { base with i := 0xFFE }).toNat + 3 := by decide

theorem witness_BlockStoreWritesTheRegisters : (State.i { base with i := 0xFF0 }).toNat + (15 : Reg).toNat + 1 ≤ 4096 ∧
    4096 < (State.i { base with i := 0xFF1 }).toNat + (15 : Reg).toNat + 1 := by decide

theorem witness_BlockLoadReadsTheRegisters : (State.i { base with i := 0xFFF }).toNat + (0 : Reg).toNat + 1 ≤ 4096 ∧
    4096 < (State.i { base with i := 0x1000 }).toNat + (0 : Reg).toNat + 1 := by decide

theorem witness_BlockStoreThenLoadRestores : ∃ t u, exec (.ldMemVx 15) { base with i := 0xFF0 } = .next t ∧
    State.i u = t.i ∧ ∀ a, u.readByte a = t.readByte a := ⟨_, _, rfl, rfl, fun _ => rfl⟩

/-- No row from an address past the end, the last row that fits, and one row too many. -/
theorem witness_DrawTogglesTheFootprint :
    (0 : Nibble) = 0 ∧ (State.i { base with i := 0xFF1 }).toNat + (15 : Nibble).toNat ≤ 4096 ∧
    (15 : Nibble) ≠ 0 ∧ 4096 < (State.i { base with i := 0xFF2 }).toNat + (15 : Nibble).toNat := by decide

/-- Under the footprint of glyph 0 at the origin, and beside it. -/
theorem witness_DrawTogglesTheFootprint_pixels :
    Footprint .wrap (spriteRows base 5) 0 0 259 ∧ ¬ Footprint .wrap (spriteRows base 0) 0 0 2047 :=
  ⟨⟨4, 3, by decide, ⟨0xF0, by decide, by decide⟩, by simp [Lands]⟩, by simp [Footprint, spriteRows]⟩

theorem witness_DrawTwiceRestores : ∃ t u : State, exec (.drw 1 2 5) base = .next t ∧ u.fb = t.fb ∧ u.i = base.i ∧
    u.params = base.params ∧ (∀ a, u.readByte a = base.readByte a) ∧ u.readReg 1 = base.readReg 1 ∧
    u.readReg 2 = base.readReg 2 :=
  ⟨_, base.setFb _, rfl, rfl, rfl, rfl, fun _ => rfl, rfl, rfl⟩

theorem witness_WrittenTimerIsDecrementedInItsStep :
    ((running 0xFF15).wait = .running ∧ (running 0xFF15).fetchDecode = .ok (.ldDtVx 15)) ∧
    ((running 0xFF18).wait = .running ∧ (running 0xFF18).fetchDecode = .ok (.ldStVx 15)) := ⟨⟨rfl, rfl⟩, ⟨rfl, rfl⟩⟩

theorem witness_TimersCountRealSteps :
    (∃ s t i u, step s = .next t ∧ State.wait s = .running ∧ s.fetchDecode = .ok i ∧ exec i s = .next u) ∧
    (∃ s t, step s = .next t ∧ State.wait s ≠ .running) :=
  ⟨⟨running 0xF107, _, .ldVxDt 1, _, rfl, rfl, rfl, rfl⟩, ⟨waiting params 0, _, rfl, by decide⟩⟩

theorem witness_LoadProgramRoundTrip : (List.replicate 3584 (0xFF : Byte)).length ≤ memSize - programStart ∧
    memSize - programStart < (List.replicate 3585 (0xFF : Byte)).length := by
  rw [List.length_replicate, List.length_replicate]; decide

theorem witness_ResetPutsEveryValue : ∃ s t : State, t = hostReset s ∧ s ≠ t := ⟨running 0x2300 0x400, _, rfl, by decide⟩

theorem witness_TickWithoutProgramIsUndecodable : Params.wellFormed { params with fontBase := 432, stackDepth := 1 } = true := by decide

theorem witness_PeekPredictsTheStep :
    (∃ s e, State.wait s = .running ∧ hostGetOpcode s = .error e) ∧
    (∃ s i t, State.wait s = .running ∧ hostGetOpcode s = .ok i ∧ exec i s = .next t) :=
  ⟨⟨{ base with pc := 0xFFFF }, _, rfl, rfl⟩, ⟨running 0x6005, .ldImm 0 5, _, rfl, rfl, rfl⟩⟩

end Sys2Proof.Tests
end

/-! Control transfer and skips (spec/41_control_and_skip.md). -/

namespace Sys2Proof.Machine

/-! ## The jump (R79, R90) -/

/-- The frame of `State.jump`, for `JP` and for every other instruction that ends in a jump. -/
theorem onlyChanges_jump (s : State) (w : Word) : OnlyChanges s (s.jump w) [.pc] := by
  intro p hp
  cases p with
  | pc => simp at hp
  | _ => simp [Part.Same]

/-- Zero extension of an address literal (R53) keeps its number. -/
@[simp] theorem toNat_addrOperand (nnn : Addr12) : (addrOperand nnn).toNat = nnn.toNat :=
  BitVec.toNat_setWidth_of_le (by decide)

theorem exec_jp (nnn : Addr12) (s : State) : exec (.jp nnn) s = .next (s.jump (addrOperand nnn)) := rfl

/-- Settles O28: `JP` is `State.jump` to the zero-extended literal. -/
theorem jumpLoadsPc : Obligations.JumpLoadsPc := by
  intro nnn s
  have hpc : (s.jump (addrOperand nnn)).pc.toNat = nnn.toNat := by simp
  exact ⟨_, exec_jp nnn s, hpc, onlyChanges_jump s _⟩

end Sys2Proof.Machine

/-! The instructions that write one register and no flag (spec/42_alu.md R114 to R119). -/

namespace Sys2Proof.Machine

/-! ## One ALU result to one register (R111, R114 to R119) -/

/-- The frame of `State.aluToReg`: the destination and `pc`, no flag. -/
theorem onlyChanges_aluToReg (s : State) (op : AluOp) (x : Reg) (a b : Byte) :
    OnlyChanges s (s.aluToReg op x a b) [.pc, .reg x] := by
  intro p hp
  cases p with
  | pc => simp at hp
  | reg r =>
    have hne : r ≠ x := by simpa using hp
    simp [Part.Same, State.aluToReg, hne]
  | _ => simp [Part.Same, State.aluToReg]

theorem aluResult_passB (a b : Byte) : aluResult .passB a b = b := rfl

theorem getLsbD_aluResult_or (a b : Byte) (k : Nat) :
    (aluResult .or a b).getLsbD k = (a.getLsbD k || b.getLsbD k) := BitVec.getLsbD_or

theorem getLsbD_aluResult_and (a b : Byte) (k : Nat) :
    (aluResult .and a b).getLsbD k = (a.getLsbD k && b.getLsbD k) := BitVec.getLsbD_and

theorem getLsbD_aluResult_xor (a b : Byte) (k : Nat) :
    (aluResult .xor a b).getLsbD k = (a.getLsbD k != b.getLsbD k) := BitVec.getLsbD_xor

/-! ## The ALU operation and second operand each instruction selects (R78) -/

theorem exec_ldImm (x : Reg) (nn : Byte) (s : State) :
    exec (.ldImm x nn) s = .next (s.aluToReg .passB x (s.readReg x) nn) := rfl

theorem exec_addImm (x : Reg) (nn : Byte) (s : State) :
    exec (.addImm x nn) s = .next (s.aluToReg .add x (s.readReg x) nn) := rfl

theorem exec_ldReg (x y : Reg) (s : State) :
    exec (.ldReg x y) s = .next (s.aluToReg .passB x (s.readReg x) (s.readReg y)) := rfl

theorem exec_or (x y : Reg) (s : State) :
    exec (.or x y) s = .next (s.aluToReg .or x (s.readReg x) (s.readReg y)) := rfl

theorem exec_and (x y : Reg) (s : State) :
    exec (.and x y) s = .next (s.aluToReg .and x (s.readReg x) (s.readReg y)) := rfl

theorem exec_xor (x y : Reg) (s : State) :
    exec (.xor x y) s = .next (s.aluToReg .xor x (s.readReg x) (s.readReg y)) := rfl

/-! ## The statements -/

/-- Settles O34: the load is the ALU's second operand, passed through. -/
theorem loadLiteral : Obligations.LoadLiteral := by
  intro x nn s
  refine ⟨_, exec_ldImm x nn s, ?_, onlyChanges_aluToReg _ _ _ _ _⟩
  rw [readReg_aluToReg, aluResult_passB]

/-- Settles O35: the ALU's sum is modulo 256, and `State.aluToReg` drops its carry. -/
theorem addLiteralWrapsWithoutFlag : Obligations.AddLiteralWrapsWithoutFlag := by
  intro x nn s
  refine ⟨_, exec_addImm x nn s, ?_, onlyChanges_aluToReg _ _ _ _ _⟩
  rw [readReg_aluToReg, aluResult_add_toNat]

/-- Settles O36: the four instructions share `State.aluToReg`, so they share its frame; each result
is read bit by bit off its ALU operation. -/
theorem copyAndLogic : Obligations.CopyAndLogic := by
  intro x y s
  refine ⟨⟨_, exec_ldReg x y s, ?copy, onlyChanges_aluToReg _ _ _ _ _⟩,
    ⟨_, exec_or x y s, fun k => ?or, onlyChanges_aluToReg _ _ _ _ _⟩,
    ⟨_, exec_and x y s, fun k => ?and, onlyChanges_aluToReg _ _ _ _ _⟩,
    ⟨_, exec_xor x y s, fun k => ?xor, onlyChanges_aluToReg _ _ _ _ _⟩⟩
  case copy => rw [readReg_aluToReg, aluResult_passB]
  case or => rw [readReg_aluToReg, getLsbD_aluResult_or]
  case and => rw [readReg_aluToReg, getLsbD_aluResult_and]
  case xor => rw [readReg_aluToReg, getLsbD_aluResult_xor]

end Sys2Proof.Machine

/-! The literal load of the index register (spec/43_index_and_memory.md R140). -/

namespace Sys2Proof.Machine

/-! ## A write of `I` that moves on to the next instruction -/

/-- The frame shared by every instruction that writes `I` and advances. -/
theorem onlyChanges_setIndex_advance (s : State) (w : Word) :
    OnlyChanges s (s.setIndex w).advance [.pc, .index] := by
  intro p hp
  cases p with
  | pc => simp at hp
  | index => simp at hp
  | _ => simp [Part.Same]

theorem exec_ldI (nnn : Addr12) (s : State) :
    exec (.ldI nnn) s = .next (s.setIndex (addrOperand nnn)).advance := rfl

/-- Settles O40: `LD I` writes the zero-extended literal with `State.setIndex`. -/
theorem loadIndexLiteral : Obligations.LoadIndexLiteral := by
  intro nnn s
  have hi : (s.setIndex (addrOperand nnn)).advance.i.toNat = nnn.toNat := by simp
  exact ⟨_, exec_ldI nnn s, hi, onlyChanges_setIndex_advance s _⟩

end Sys2Proof.Machine

/-! Keys and timers (spec/46_keys_and_timers.md). -/

namespace Sys2Proof.Machine

/-! ## A wait check writes no timer (R197) -/

@[simp] theorem waitCheck_dt (s : State) (r : Reg) (keys : Keypad) : (s.waitCheck r keys).dt = s.dt := by
  obtain ⟨-, h⟩ | ⟨b, -, h⟩ := waitCheck_cases s r keys <;> simp [h]

@[simp] theorem waitCheck_st (s : State) (r : Reg) (keys : Keypad) : (s.waitCheck r keys).st = s.st := by
  obtain ⟨-, h⟩ | ⟨b, -, h⟩ := waitCheck_cases s r keys <;> simp [h]

/-! ## The two kinds of completed tick, told apart by `wait` (R70) -/

/-- A completed tick of a running machine ends with the timers, on the state its instruction left. -/
theorem step_next_of_running {s t u : State} {i : Instr} (h : step s = .next t) (hw : s.wait = .running)
    (hi : s.fetchDecode = .ok i) (hu : exec i s = .next u) : t = u.timersStep.consumeKey := by
  simpa [step, hw, hi, hu] using h.symm

/-- A completed tick of a waiting machine is the wait check alone. -/
theorem step_next_of_waiting {s t : State} (h : step s = .next t) (hw : s.wait ≠ .running) :
    ∃ r, t = (s.waitCheck r s.key).consumeKey := by
  obtain ⟨r, -, ht⟩ | ⟨i, u, hrun, -⟩ := step_next_cases h
  · exact ⟨r, ht⟩
  · exact absurd hrun hw

/-- Settles O56: a real step ends with `State.timersStep`, where each timer counts down; a wait tick is a
wait check, which writes no timer. -/
theorem timersCountRealSteps : Obligations.TimersCountRealSteps := by
  intro s t h
  constructor
  · intro i u hw hi hu
    obtain rfl := step_next_of_running h hw hi hu
    simp [countDown_toNat]
  · intro hw
    obtain ⟨r, rfl⟩ := step_next_of_waiting h hw
    simp

end Sys2Proof.Machine

/-! The encodings: decoder, encoder and opcode map (spec/30_encoding.md, spec/40_step_and_dispatch.md). -/

namespace Sys2Proof

/-! ## What each group of the decoder accepts (R76) -/

theorem decodeGroup0_sound {w : Word} {i : Instr} (hT : fieldT w = 0x0) (h : decodeGroup0 w = some i) :
    encode i = w := by
  have hw := wordA_fields w
  rw [hT] at hw
  unfold decodeGroup0 at h
  split at h
  case h_1 hN => cases h; rw [← hw, hN]; rfl
  case h_2 hN => cases h; rw [← hw, hN]; rfl
  case h_3 => cases h

theorem decodeGroup8_sound {w : Word} {i : Instr} (hT : fieldT w = 0x8) (h : decodeGroup8 w = some i) :
    encode i = w := by
  have hw := wordXY_fields w
  rw [hT] at hw
  unfold decodeGroup8 at h
  split at h
  case h_10 => cases h
  all_goals
    rename_i hN
    cases h
    rwa [hN] at hw

theorem decodeGroupE_sound {w : Word} {i : Instr} (hT : fieldT w = 0xE) (h : decodeGroupE w = some i) :
    encode i = w := by
  have hw := wordXI_fields w
  rw [hT] at hw
  unfold decodeGroupE at h
  split at h
  case h_3 => cases h
  all_goals
    rename_i hN
    cases h
    rwa [hN] at hw

theorem decodeGroupF_sound {w : Word} {i : Instr} (hT : fieldT w = 0xF) (h : decodeGroupF w = some i) :
    encode i = w := by
  have hw := wordXI_fields w
  rw [hT] at hw
  unfold decodeGroupF at h
  split at h
  case h_10 => cases h
  all_goals
    rename_i hN
    cases h
    rwa [hN] at hw

/-- Settles O3: each arm of the decoder keeps every field of its format, so the format's layout makes the
word again. -/
theorem encodeOfDecode : Obligations.EncodeOfDecode := by
  intro w i h
  have hA := wordA_fields w
  have hXI := wordXI_fields w
  have hXY := wordXY_fields w
  unfold decode at h
  split at h
  case h_17 => cases h
  all_goals rename_i hT; rw [hT] at hA hXI hXY
  case h_1 => exact decodeGroup0_sound hT h
  case h_9 => exact decodeGroup8_sound hT h
  case h_15 => exact decodeGroupE_sound hT h
  case h_16 => exact decodeGroupF_sound hT h
  case h_6 | h_10 =>
    split at h
    · rename_i hN; cases h; rwa [hN] at hXY
    · cases h
  case h_2 | h_3 | h_11 | h_12 => cases h; exact hA
  case h_4 | h_5 | h_7 | h_8 | h_13 => cases h; exact hXI
  case h_14 => cases h; exact hXY

/-! ## The round trips (R77) -/

/-- Settles O2: the primary opcode selects the decoder's arm or group, the fixed sub-opcode the arm in the
group, and each field wire reads its operand back from the format. -/
theorem decodeOfEncode : Obligations.DecodeOfEncode := by
  intro i _
  cases i with
  | cls | ret => decide
  | jp | call | ldI | ldIV0 => simp [encode, decode]
  | seImm | sneImm | ldImm | addImm | rnd => simp [encode, decode]
  | seReg | sneReg | drw => simp [encode, decode]
  | ldReg | or | and | xor | addReg | sub | shr | subn | shl => simp [encode, decode, decodeGroup8]
  | skp | sknp => simp [encode, decode, decodeGroupE]
  | ldVxDt | ldVxK | ldDtVx | ldStVx | addI | ldF | ldB | ldMemVx | ldVxMem => simp [encode, decode, decodeGroupF]

/-! ## The rows of the opcode map on the field wires (R51, R55) -/

/-- A field of a word under a row's mask is the field of the row's fixed bits. -/
theorem extractLsb'_of_selects {w : Word} {r : OpcodeRow} (h : r.selects w = true) (lo len : Nat) :
    w.extractLsb' lo len &&& r.mask.extractLsb' lo len = r.bits.extractLsb' lo len := by
  rw [← BitVec.extractLsb'_and, eq_of_beq h]

/-! The masks of the map cover a field whole or not at all; the whole ones as literals: -/

theorem nibble_and_ones (n : Nibble) : n &&& 15#4 = n := BitVec.and_allOnes
theorem byte_and_ones (b : Byte) : b &&& 255#8 = b := BitVec.and_allOnes
theorem addr_and_ones (a : Addr12) : a &&& 4095#12 = a := BitVec.and_allOnes

/-- A word that selects a row decodes to an instruction of that row: the row's mask leaves exactly the wires
the decoder tests, and its bits are the values the decoder tests them for. -/
theorem decode_of_selects {w : Word} {r : OpcodeRow} (hr : r ∈ opcodeRows) (hw : r.selects w = true) :
    ∃ i, decode w = some i ∧ i.row = r.number := by
  have hT : fieldT w &&& _ = _ := extractLsb'_of_selects hw 12 4
  have hN : fieldN w &&& _ = _ := extractLsb'_of_selects hw 0 4
  have hNN : fieldNN w &&& _ = _ := extractLsb'_of_selects hw 0 8
  have hNNN : fieldNNN w &&& _ = _ := extractLsb'_of_selects hw 0 12
  fin_cases hr
  all_goals simp [nibble_and_ones, byte_and_ones, addr_and_ones] at hT hN hNN hNNN
  all_goals simp [decode, decodeGroup0, decodeGroup8, decodeGroupE, decodeGroupF, Instr.row, *]

/-- The laws of the constructors, as one law of every instruction. -/
theorem encoding_statement : ∀ i : Instr, Laws.Encoding.Statement i
  | .cls => Laws.Encoding.cls
  | .ret => Laws.Encoding.ret
  | .jp a => Laws.Encoding.jp a
  | .call a => Laws.Encoding.call a
  | .seImm x v => Laws.Encoding.seImm x v
  | .sneImm x v => Laws.Encoding.sneImm x v
  | .seReg x y => Laws.Encoding.seReg x y
  | .ldImm x v => Laws.Encoding.ldImm x v
  | .addImm x v => Laws.Encoding.addImm x v
  | .ldReg x y => Laws.Encoding.ldReg x y
  | .or x y => Laws.Encoding.or x y
  | .and x y => Laws.Encoding.and x y
  | .xor x y => Laws.Encoding.xor x y
  | .addReg x y => Laws.Encoding.addReg x y
  | .sub x y => Laws.Encoding.sub x y
  | .shr x y => Laws.Encoding.shr x y
  | .subn x y => Laws.Encoding.subn x y
  | .shl x y => Laws.Encoding.shl x y
  | .sneReg x y => Laws.Encoding.sneReg x y
  | .ldI a => Laws.Encoding.ldI a
  | .ldIV0 a => Laws.Encoding.ldIV0 a
  | .rnd x v => Laws.Encoding.rnd x v
  | .drw x y n => Laws.Encoding.drw x y n
  | .skp x => Laws.Encoding.skp x
  | .sknp x => Laws.Encoding.sknp x
  | .ldVxDt x => Laws.Encoding.ldVxDt x
  | .ldVxK x => Laws.Encoding.ldVxK x
  | .ldDtVx x => Laws.Encoding.ldDtVx x
  | .ldStVx x => Laws.Encoding.ldStVx x
  | .addI x => Laws.Encoding.addI x
  | .ldF x => Laws.Encoding.ldF x
  | .ldB x => Laws.Encoding.ldB x
  | .ldMemVx x => Laws.Encoding.ldMemVx x
  | .ldVxMem x => Laws.Encoding.ldVxMem x

theorem opcodeRows_number_inj : ∀ r ∈ opcodeRows, ∀ q ∈ opcodeRows, r.number = q.number → r = q := by decide

/-- Settles O5: a word that selects two rows decodes to one instruction, which has one row number. -/
theorem opcodeRowsAreDisjoint : Obligations.OpcodeRowsAreDisjoint := by
  intro w r q hr hq hrw hqw
  obtain ⟨i, hi, hir⟩ := decode_of_selects hr hrw
  obtain ⟨j, hj, hjq⟩ := decode_of_selects hq hqw
  obtain rfl : i = j := Option.some.inj (hi.symm.trans hj)
  exact opcodeRows_number_inj r hr q hq (hir.symm.trans hjq)

/-- Settles O4: a row the map finds is the row of what the decoder answers, and what the decoder answers
encodes to the word, which selects its row. -/
theorem decodeAgreesWithOpcodeMap : Obligations.DecodeAgreesWithOpcodeMap := by
  intro w
  cases hf : opcodeRows.find? (fun r => r.selects w) with
  | some r =>
    obtain ⟨i, hi, hrow⟩ := decode_of_selects (List.mem_of_find?_eq_some hf) (by simpa using List.find?_some hf)
    simp [hi, hrow]
  | none =>
    cases hd : decode w with
    | none => rfl
    | some i =>
      obtain ⟨-, ⟨r, hr, -, hsel⟩, -⟩ := encoding_statement i
      rw [encodeOfDecode w i hd] at hsel
      exact absurd hsel (List.find?_eq_none.1 hf r hr)

/-! ## The undecodable words (R57) -/

theorem fieldT_toNat (w : Word) : (fieldT w).toNat = w.toNat / 0x1000 := by
  have := w.isLt
  rw [fieldT, BitVec.extractLsb'_toNat, Nat.shiftRight_eq_div_pow]
  omega

theorem fieldN_toNat (w : Word) : (fieldN w).toNat = w.toNat % 16 := by simp [fieldN]

theorem fieldNN_toNat (w : Word) : (fieldNN w).toNat = w.toNat % 256 := by simp [fieldNN]

theorem fieldT_eq_iff (w : Word) (t : Nibble) : fieldT w = t ↔ w.toNat / 0x1000 = t.toNat := by
  rw [← BitVec.toNat_inj, fieldT_toNat]

theorem fieldN_eq_iff (w : Word) (n : Nibble) : fieldN w = n ↔ w.toNat % 16 = n.toNat := by
  rw [← BitVec.toNat_inj, fieldN_toNat]

theorem fieldNN_eq_iff (w : Word) (v : Byte) : fieldNN w = v ↔ w.toNat % 256 = v.toNat := by
  rw [← BitVec.toNat_inj, fieldNN_toNat]

theorem decodeGroup0_eq_none {w : Word} (hT : fieldT w = 0x0) :
    decodeGroup0 w = none ↔ w ≠ 0x00E0 ∧ w ≠ 0x00EE := by
  have hw (a : Addr12) : fieldNNN w = a ↔ w = wordA 0x0 a :=
    ⟨fun h => by rw [← hT, ← h, wordA_fields], fun h => by rw [h, fieldNNN_wordA]⟩
  have hcls : fieldNNN w = 0x0E0 ↔ w = 0x00E0 := hw 0x0E0
  have hret : fieldNNN w = 0x0EE ↔ w = 0x00EE := hw 0x0EE
  rw [Ne, Ne, ← hcls, ← hret]
  unfold decodeGroup0
  split <;> simp_all

theorem decodeGroup8_eq_none (w : Word) :
    decodeGroup8 w = none ↔ 8 ≤ w.toNat % 16 ∧ w.toNat % 16 ≠ 0xE := by
  unfold decodeGroup8
  split <;> simp_all [fieldN_eq_iff]
  omega

theorem decodeGroupE_eq_none (w : Word) : decodeGroupE w = none ↔ w.toNat % 256 ∉ [0x9E, 0xA1] := by
  unfold decodeGroupE
  split <;> simp_all [fieldNN_eq_iff]

theorem decodeGroupF_eq_none (w : Word) :
    decodeGroupF w = none ↔ w.toNat % 256 ∉ [0x07, 0x0A, 0x15, 0x18, 0x1E, 0x29, 0x33, 0x55, 0x65] := by
  unfold decodeGroupF
  split <;> simp_all [fieldNN_eq_iff]

/-- Settles O6: the primary opcode selects one of the listed sets' groups, where the group's own test is the
set's, or a group that accepts every word. -/
theorem undecodableWordsAreTheListedSets : Obligations.UndecodableWordsAreTheListedSets := by
  intro w
  unfold decode
  split
  case h_17 h0 h1 h2 h3 h4 h5 h6 h7 h8 h9 hA hB hC hD hE hF =>
    simp only [imp_false, fieldT_eq_iff, BitVec.toNat_ofNat] at *
    have := w.isLt
    omega
  case h_1 hT =>
    rw [decodeGroup0_eq_none hT]
    have hlow : w.toNat / 0x1000 = 0 := (fieldT_eq_iff w 0).1 hT
    have : w.toNat < 0x1000 := by omega
    simp [hlow, this]
  all_goals
    rename_i hT
    have hT := (fieldT_eq_iff w _).1 hT
    simp only [BitVec.toNat_ofNat, Nat.reducePow, Nat.reduceMod] at hT
    have hlow : ¬ w.toNat < 0x1000 := by omega
  case h_9 => simp [decodeGroup8_eq_none, hT, hlow]
  case h_15 => simp [decodeGroupE_eq_none, hT, hlow]
  case h_16 => simp [decodeGroupF_eq_none, hT, hlow]
  case h_6 | h_10 => simp [fieldN_eq_iff, hT, hlow]
  all_goals simp [hT, hlow]

/-- Settles O1: the decoder runs on each word. -/
theorem listedWordsDecode : Obligations.ListedWordsDecode := by
  unfold Obligations.ListedWordsDecode
  decide

end Sys2Proof

/-! Frames of the state's operations, and what each instruction answers (spec/10_state.md R27,
spec/40_step_and_dispatch.md R78). -/

namespace Sys2Proof.Machine

/-! ## Frames compose -/

theorem Part.Same.trans {p : Part} {s t u : State} (h : p.Same s t) (h' : p.Same t u) : p.Same s u := by
  cases p <;> simp_all [Part.Same]

theorem OnlyChanges.trans {s t u : State} {ps qs : List Part} (h : OnlyChanges s t ps) (h' : OnlyChanges t u qs) :
    OnlyChanges s u (ps ++ qs) := by
  intro p hp
  rw [List.mem_append, not_or] at hp
  exact (h p hp.1).trans (h' p hp.2)

theorem OnlyChanges.mono {s t : State} {ps qs : List Part} (h : OnlyChanges s t ps) (hsub : ps ⊆ qs) :
    OnlyChanges s t qs := fun p hp => h p fun hmem => hp (hsub hmem)

/-! ## The frame of each operation -/

section
variable (s : State)

theorem onlyChanges_advance : OnlyChanges s s.advance [.pc] := by
  intro p hp; cases p <;> simp_all [Part.Same]
theorem onlyChanges_skipIf (c : Bool) : OnlyChanges s (s.skipIf c) [.pc] := by
  intro p hp; cases p <;> simp_all [Part.Same]
theorem onlyChanges_writeReg (r : Reg) (b : Byte) : OnlyChanges s (s.writeReg r b) [.reg r] := by
  intro p hp; cases p <;> simp_all [Part.Same]
theorem onlyChanges_setIndex (w : Word) : OnlyChanges s (s.setIndex w) [.index] := by
  intro p hp; cases p <;> simp_all [Part.Same]
theorem onlyChanges_setDt (b : Byte) : OnlyChanges s (s.setDt b) [.dt] := by
  intro p hp; cases p <;> simp_all [Part.Same]
theorem onlyChanges_setSt (b : Byte) : OnlyChanges s (s.setSt b) [.st] := by
  intro p hp; cases p <;> simp_all [Part.Same]
theorem onlyChanges_setFb (f : FrameBuffer) : OnlyChanges s (s.setFb f) [.fb] := by
  intro p hp; cases p <;> simp_all [Part.Same]
theorem onlyChanges_setWait (w : Wait) : OnlyChanges s (s.setWait w) [.wait] := by
  intro p hp; cases p <;> simp_all [Part.Same]
theorem onlyChanges_setRng (b : Byte) : OnlyChanges s (s.setRng b) [.rng] := by
  intro p hp; cases p <;> simp_all [Part.Same]
theorem onlyChanges_setMem (m : Memory) : OnlyChanges s (s.setMem m) [.mem] := by
  intro p hp; cases p <;> simp_all [Part.Same]
theorem onlyChanges_setStack (l : List Word) (n : Nat) : OnlyChanges s (s.setStack l n) [.stack] := by
  intro p hp; cases p <;> simp_all [Part.Same]
theorem onlyChanges_consumeKey : OnlyChanges s s.consumeKey [.keys] := by
  intro p hp; cases p <;> simp_all [Part.Same]
theorem onlyChanges_timersStep : OnlyChanges s s.timersStep [.dt, .st] := by
  intro p hp; cases p <;> simp_all [Part.Same]
theorem onlyChanges_presentKey (k : Keypad) : OnlyChanges s (s.presentKey k) [.keys] := by
  intro p hp; cases p <;> simp_all [Part.Same]

end

/-- The frame of an update followed by the normal advance of `pc`. -/
theorem OnlyChanges.advance {s t : State} {ps : List Part} (h : OnlyChanges s t ps) :
    OnlyChanges s t.advance (.pc :: ps) :=
  (h.trans (onlyChanges_advance t)).mono (by simp)

/-- The frame of an update followed by a jump. -/
theorem OnlyChanges.jump {s t : State} {ps : List Part} (h : OnlyChanges s t ps) (w : Word) :
    OnlyChanges s (t.jump w) (.pc :: ps) :=
  (h.trans (onlyChanges_jump t w)).mono (by simp)

theorem onlyChanges_aluToRegAndFlag (s : State) (op : AluOp) (x : Reg) (a b : Byte) :
    OnlyChanges s (s.aluToRegAndFlag op x a b) [.pc, .reg x, .reg flagReg] :=
  ((onlyChanges_writeReg s x _).trans (onlyChanges_writeReg _ flagReg _)).advance

@[simp] theorem writeBlock_pc (s : State) (k : Nat) (bs : List Byte) : (s.writeBlock k bs).pc = s.pc := by
  rw [writeBlock_eq]

/-- The frame of a block of register writes from `V[0]` on. -/
theorem onlyChanges_writeBlock (s : State) (x : Reg) (bs : List Byte) (hlen : bs.length = x.toNat + 1) :
    OnlyChanges s (s.writeBlock 0 bs) (blockParts x) := by
  intro p hp
  rw [mem_blockParts, not_exists] at hp
  cases p with
  | reg r =>
    have hr : ¬ r.toNat ≤ x.toNat := fun h => hp r ⟨h, rfl⟩
    have := x.isLt
    rw [Part.Same, readReg_writeBlock bs s 0 r (by omega), if_neg (by omega)]
  | _ => rw [writeBlock_eq]; simp [Part.Same, State.readByte]

/-! ## What each instruction answers (R78)

The instructions that complete from every state have one equation each. -/

section
variable (x y : Reg) (nn : Byte) (nnn : Addr12) (s : State)

theorem exec_cls : exec .cls s = .next (s.setFb clearFb).advance := rfl
theorem exec_seImm : exec (.seImm x nn) s = .next (s.skipIf (s.readReg x == nn)) := rfl
theorem exec_sneImm : exec (.sneImm x nn) s = .next (s.skipIf (s.readReg x != nn)) := rfl
theorem exec_seReg : exec (.seReg x y) s = .next (s.skipIf (s.readReg x == s.readReg y)) := rfl
theorem exec_sneReg : exec (.sneReg x y) s = .next (s.skipIf (s.readReg x != s.readReg y)) := rfl
theorem exec_skp : exec (.skp x) s = .next (s.skipIf (keyPressed s.key (s.keyOperand x))) := rfl
theorem exec_sknp : exec (.sknp x) s = .next (s.skipIf (!keyPressed s.key (s.keyOperand x))) := rfl
theorem exec_addReg :
    exec (.addReg x y) s = .next (s.aluToRegAndFlag .add x (s.readReg x) (s.readReg y)) := rfl
theorem exec_sub : exec (.sub x y) s = .next (s.aluToRegAndFlag .sub x (s.readReg x) (s.readReg y)) := rfl
theorem exec_subn : exec (.subn x y) s = .next (s.aluToRegAndFlag .sub x (s.readReg y) (s.readReg x)) := rfl
theorem exec_shr :
    exec (.shr x y) s = .next (s.aluToRegAndFlag .shr x (s.shiftOperand x y) (s.readReg y)) := rfl
theorem exec_shl :
    exec (.shl x y) s = .next (s.aluToRegAndFlag .shl x (s.shiftOperand x y) (s.readReg y)) := rfl
theorem exec_rnd : exec (.rnd x nn) s =
    .next ((s.setRng (prngNext s.params s.rng)).aluToReg .and x (prngNext s.params s.rng) nn) := rfl
theorem exec_ldVxDt : exec (.ldVxDt x) s = .next (s.aluToReg .passB x (s.readReg x) s.dt) := rfl
theorem exec_ldVxK : exec (.ldVxK x) s = .next (s.setWait (.awaitingKey x)).advance := rfl
theorem exec_ldDtVx : exec (.ldDtVx x) s = .next (s.setDt (s.readReg x)).advance := rfl
theorem exec_ldStVx : exec (.ldStVx x) s = .next (s.setSt (s.readReg x)).advance := rfl
theorem exec_addI : exec (.addI x) s =
    .next (s.setIndex (BitVec.ofNat 16 (s.i.toNat + (s.readReg x).toNat))).advance := rfl
theorem exec_ldF : exec (.ldF x) s = .next (s.setIndex (s.glyphAddress x)).advance := rfl

theorem exec_ldIV0_of_index (h : s.params.bnnnTarget = .index) :
    exec (.ldIV0 nnn) s = .next (s.setIndex (s.offsetOperand nnn)).advance := by
  simp [exec, execLdIV0, h]
theorem exec_ldIV0_of_pc (h : s.params.bnnnTarget = .pc) :
    exec (.ldIV0 nnn) s = .next (s.jump (s.offsetOperand nnn)) := by
  simp [exec, execLdIV0, h]

/-! The six that can raise have a case for each answer (R233). -/

/-- All that `CALL` can answer (R92). -/
theorem exec_call_cases :
    s.sp < s.params.stackDepth ∧ exec (.call nnn) s =
      .next ((s.setStack (s.stack.set s.sp s.pc) (s.sp + 1)).jump (addrOperand nnn)) ∨
    s.params.stackDepth ≤ s.sp ∧ exec (.call nnn) s = .fault .stackOverflow := by
  simp only [exec, execCall]
  obtain ⟨h, hp⟩ | ⟨h, hp⟩ := push_cases s s.pc
  · exact .inl ⟨h, by rw [hp]⟩
  · exact .inr ⟨h, by rw [hp]; rfl⟩

/-- All that `RET` can answer (R93). -/
theorem exec_ret_cases :
    0 < s.sp ∧ exec .ret s =
      .next ((s.setStack s.stack (s.sp - 1)).jump (s.stack.getD (s.sp - 1) 0 + 2)) ∨
    s.sp = 0 ∧ exec .ret s = .fault .stackUnderflow := by
  simp only [exec, execRet]
  obtain ⟨h, hp⟩ | ⟨h, hp⟩ := pop_cases s
  · exact .inl ⟨h, by rw [hp]⟩
  · exact .inr ⟨h, by rw [hp]; rfl⟩

/-- What a `DRW` that reads its rows draws (R175). -/
def drawing (s : State) (x y : Reg) (n : Nibble) : Canvas :=
  composite s.params.drawEdge s.fb (spriteRows s n) (s.readReg x) (s.readReg y)

/-- All that `DRW` can answer (R175). -/
theorem exec_drw_cases (n : Nibble) :
    (n.toNat = 0 ∨ s.i.toNat + n.toNat ≤ memSize) ∧ exec (.drw x y n) s =
      .next ((s.setFb (drawing s x y n).1).writeFlag (drawing s x y n).2).advance ∨
    (memSize < s.i.toNat + n.toNat ∧ 0 < n.toNat) ∧
      exec (.drw x y n) s = .fault (.outOfBounds (max s.i.toNat memSize)) := by
  simp only [exec, execDrw]
  obtain ⟨h, hr⟩ | ⟨h, hr⟩ := memRead_cases s s.i.toNat n.toNat
  · refine .inl ⟨h, ?_⟩
    have hrows : (List.range' s.i.toNat n.toNat).map s.readByte = spriteRows s n := by
      simp [spriteRows, List.range'_eq_map_range]
    rw [hr, hrows]
    rfl
  · exact .inr ⟨h, by rw [hr]; rfl⟩

/-- All that `LD B` can answer (R145). -/
theorem exec_ldB_cases :
    s.i.toNat + 3 ≤ memSize ∧ exec (.ldB x) s =
      .next (s.setMem (Memory.writeBytes s.params.fontBase s.mem s.i.toNat (bcdDigits (s.readReg x)))).advance ∨
    memSize < s.i.toNat + 3 ∧ exec (.ldB x) s = .fault (.outOfBounds (max s.i.toNat memSize)) := by
  simp only [exec, execLdB]
  obtain ⟨h, hw⟩ | ⟨h, hw⟩ := memWrite_cases s s.i.toNat (bcdDigits (s.readReg x)) <;>
    simp only [bcdDigits, List.length_cons, List.length_nil] at h
  · exact .inl ⟨by omega, by rw [hw]⟩
  · exact .inr ⟨by omega, by rw [hw]; rfl⟩

/-- All that `LD [I], Vx` can answer (R147). -/
theorem exec_ldMemVx_cases :
    s.i.toNat + (x.toNat + 1) ≤ memSize ∧ exec (.ldMemVx x) s =
      .next (s.setMem (Memory.writeBytes s.params.fontBase s.mem s.i.toNat (s.readBlock x))).advance ∨
    memSize < s.i.toNat + (x.toNat + 1) ∧ exec (.ldMemVx x) s = .fault (.outOfBounds (max s.i.toNat memSize)) := by
  simp only [exec, execLdMemVx]
  obtain ⟨h, hw⟩ | ⟨h, hw⟩ := memWrite_cases s s.i.toNat (s.readBlock x) <;> rw [readBlock_length] at h
  · exact .inl ⟨by omega, by rw [hw]⟩
  · exact .inr ⟨h.1, by rw [hw]; rfl⟩

/-- The bytes a block load reads: `MEM[I] .. MEM[I+x]` (R148). -/
def loadedBytes (s : State) (x : Reg) : List Byte := (List.range' s.i.toNat (blockLength x)).map s.readByte

/-- All that `LD Vx, [I]` can answer (R148). -/
theorem exec_ldVxMem_cases :
    s.i.toNat + (x.toNat + 1) ≤ memSize ∧ exec (.ldVxMem x) s =
      .next (s.writeBlock 0 (loadedBytes s x)).advance ∨
    memSize < s.i.toNat + (x.toNat + 1) ∧ exec (.ldVxMem x) s = .fault (.outOfBounds (max s.i.toNat memSize)) := by
  simp only [exec, execLdVxMem]
  obtain ⟨h, hr⟩ | ⟨h, hr⟩ := memRead_cases s s.i.toNat (blockLength x) <;> simp only [blockLength] at h
  · exact .inl ⟨by omega, by rw [hr]; rfl⟩
  · exact .inr ⟨h.1, by rw [hr]; rfl⟩

end

@[simp] theorem length_loadedBytes (s : State) (x : Reg) : (loadedBytes s x).length = x.toNat + 1 := by
  simp [loadedBytes, blockLength]

/-! ## The errors of the execute phase, and the frame of the instructions -/

/-- The errors of the execute phase: each instruction's own, with its condition and payload (R220, R233). -/
inductive ExecError (s : State) : Instr → Fault → Prop
  | call (nnn : Addr12) (h : s.params.stackDepth ≤ s.sp) : ExecError s (.call nnn) .stackOverflow
  | ret (h : s.sp = 0) : ExecError s .ret .stackUnderflow
  | drw (x y : Reg) (n : Nibble) (h : memSize < s.i.toNat + n.toNat) (hn : 0 < n.toNat) :
      ExecError s (.drw x y n) (.outOfBounds (max s.i.toNat memSize))
  | ldB (x : Reg) (h : memSize < s.i.toNat + 3) : ExecError s (.ldB x) (.outOfBounds (max s.i.toNat memSize))
  | ldMemVx (x : Reg) (h : memSize < s.i.toNat + (x.toNat + 1)) :
      ExecError s (.ldMemVx x) (.outOfBounds (max s.i.toNat memSize))
  | ldVxMem (x : Reg) (h : memSize < s.i.toNat + (x.toNat + 1)) :
      ExecError s (.ldVxMem x) (.outOfBounds (max s.i.toNat memSize))

/-- Every instruction completes or raises its error: none is refused (R57, R74). -/
theorem exec_answers (i : Instr) (s : State) :
    (∃ t, exec i s = .next t) ∨ ∃ e, exec i s = .fault e ∧ ExecError s i e := by
  cases i with
  | call nnn =>
    obtain ⟨-, hx⟩ | ⟨h, hx⟩ := exec_call_cases nnn s
    · exact .inl ⟨_, hx⟩
    · exact .inr ⟨_, hx, .call nnn h⟩
  | ret =>
    obtain ⟨-, hx⟩ | ⟨h, hx⟩ := exec_ret_cases s
    · exact .inl ⟨_, hx⟩
    · exact .inr ⟨_, hx, .ret h⟩
  | drw x y n =>
    obtain ⟨-, hx⟩ | ⟨h, hx⟩ := exec_drw_cases x y s n
    · exact .inl ⟨_, hx⟩
    · exact .inr ⟨_, hx, .drw x y n h.1 h.2⟩
  | ldB x =>
    obtain ⟨-, hx⟩ | ⟨h, hx⟩ := exec_ldB_cases x s
    · exact .inl ⟨_, hx⟩
    · exact .inr ⟨_, hx, .ldB x h⟩
  | ldMemVx x =>
    obtain ⟨-, hx⟩ | ⟨h, hx⟩ := exec_ldMemVx_cases x s
    · exact .inl ⟨_, hx⟩
    · exact .inr ⟨_, hx, .ldMemVx x h⟩
  | ldVxMem x =>
    obtain ⟨-, hx⟩ | ⟨h, hx⟩ := exec_ldVxMem_cases x s
    · exact .inl ⟨_, hx⟩
    · exact .inr ⟨_, hx, .ldVxMem x h⟩
  | ldIV0 nnn =>
    cases hb : s.params.bnnnTarget with
    | index => exact .inl ⟨_, exec_ldIV0_of_index nnn s hb⟩
    | pc => exact .inl ⟨_, exec_ldIV0_of_pc nnn s hb⟩
  | _ => exact .inl ⟨_, rfl⟩

/-- Settles O12: the error of an instruction is one of the six. -/
theorem twentyEightInstructionsAlwaysComplete : Obligations.TwentyEightInstructionsAlwaysComplete := by
  intro i s hcall hret hdrw hldB hstore hload
  obtain hnext | ⟨e, -, he⟩ := exec_answers i s
  · exact hnext
  · cases he with
    | call nnn => exact absurd rfl (hcall nnn)
    | ret => exact absurd rfl hret
    | drw x y n => exact absurd rfl (hdrw x y n)
    | ldB x => exact absurd rfl (hldB x)
    | ldMemVx x => exact absurd rfl (hstore x)
    | ldVxMem x => exact absurd rfl (hload x)

theorem execError_of_fault {i : Instr} {s : State} {e : Fault} (h : exec i s = .fault e) : ExecError s i e := by
  obtain ⟨t, ht⟩ | ⟨e', he', hx⟩ := exec_answers i s
  · rw [ht] at h; cases h
  · rw [he'] at h; cases h; exact hx

theorem exec_ne_refused (i : Instr) (s : State) (r : Refusal) : exec i s ≠ .refused r := by
  obtain ⟨t, h⟩ | ⟨e, h, -⟩ := exec_answers i s <;> simp [h]

/-- Settles O18: each instruction is a composition of operations whose frames are its row of the matrix. -/
theorem accessMatrixWrites : Obligations.AccessMatrixWrites := by
  intro i s t h
  cases i with
  | cls => cases h; exact (onlyChanges_setFb s _).advance
  | ret =>
    obtain ⟨-, hx⟩ | ⟨-, hx⟩ := exec_ret_cases s <;> cases hx.symm.trans h
    exact (onlyChanges_setStack s _ _).jump _
  | jp nnn => cases h; exact onlyChanges_jump s _
  | call nnn =>
    obtain ⟨-, hx⟩ | ⟨-, hx⟩ := exec_call_cases nnn s <;> cases hx.symm.trans h
    exact (onlyChanges_setStack s _ _).jump _
  | seImm | sneImm | seReg | sneReg | skp | sknp => cases h; exact onlyChanges_skipIf s _
  | ldImm | addImm | ldReg | or | and | xor | ldVxDt => cases h; exact onlyChanges_aluToReg s _ _ _ _
  | addReg | sub | shr | subn | shl => cases h; exact onlyChanges_aluToRegAndFlag s _ _ _ _
  | ldI | addI | ldF => cases h; exact (onlyChanges_setIndex s _).advance
  | ldIV0 nnn =>
    cases hb : s.params.bnnnTarget with
    | index =>
      cases (exec_ldIV0_of_index nnn s hb).symm.trans h
      simpa [writtenParts, hb] using (onlyChanges_setIndex s _).advance
    | pc =>
      cases (exec_ldIV0_of_pc nnn s hb).symm.trans h
      simpa [writtenParts, hb] using onlyChanges_jump s _
  | rnd x nn =>
    cases h
    exact ((onlyChanges_setRng s _).trans (onlyChanges_aluToReg _ _ x _ _)).mono (by simp [writtenParts])
  | drw x y n =>
    obtain ⟨-, hx⟩ | ⟨-, hx⟩ := exec_drw_cases x y s n <;> cases hx.symm.trans h
    exact ((onlyChanges_setFb s _).trans (onlyChanges_writeReg _ flagReg _)).advance.mono (by simp [writtenParts])
  | ldVxK x => cases h; exact (onlyChanges_setWait s _).advance
  | ldDtVx x => cases h; exact (onlyChanges_setDt s _).advance
  | ldStVx x => cases h; exact (onlyChanges_setSt s _).advance
  | ldB x =>
    obtain ⟨-, hx⟩ | ⟨-, hx⟩ := exec_ldB_cases x s <;> cases hx.symm.trans h
    exact (onlyChanges_setMem s _).advance
  | ldMemVx x =>
    obtain ⟨-, hx⟩ | ⟨-, hx⟩ := exec_ldMemVx_cases x s <;> cases hx.symm.trans h
    exact (onlyChanges_setMem s _).advance
  | ldVxMem x =>
    obtain ⟨-, hx⟩ | ⟨-, hx⟩ := exec_ldVxMem_cases x s <;> cases hx.symm.trans h
    exact (onlyChanges_writeBlock s x _ (length_loadedBytes s x)).advance

end Sys2Proof.Machine

/-! The machine's invariant (spec/10_state.md R26). -/

namespace Sys2Proof.Machine

namespace State.Inv

/-! ## Operations that the invariant does not look at -/

section
variable {s : State} (h : s.Inv)
include h

theorem setIndex (w : Word) : (s.setIndex w).Inv := { h with }
theorem setDt (b : Byte) : (s.setDt b).Inv := { h with }
theorem setSt (b : Byte) : (s.setSt b).Inv := { h with }
theorem setFb (f : FrameBuffer) : (s.setFb f).Inv := { h with }
theorem setWait (w : Wait) : (s.setWait w).Inv := { h with }
theorem setRng (b : Byte) : (s.setRng b).Inv := { h with }
theorem writeReg (r : Reg) (b : Byte) : (s.writeReg r b).Inv := { h with }
theorem presentKey (k : Keypad) : (s.presentKey k).Inv := { h with }
theorem timersStep : s.timersStep.Inv := { h with }
theorem consumeKey : s.consumeKey.Inv := by
  unfold State.consumeKey
  split <;> exact { h with }
theorem writeBlock (k : Nat) (bs : List Byte) : (s.writeBlock k bs).Inv := by
  rw [writeBlock_eq]; exact { h with }
theorem waitCheck (r : Reg) (keys : Keypad) : (s.waitCheck r keys).Inv := by
  obtain ⟨-, hw⟩ | ⟨b, -, hw⟩ := waitCheck_cases s r keys <;> rw [hw]
  · exact h
  · exact (h.writeReg r b).setWait .running

/-! ## Operations on the parts it speaks of -/

theorem setMem {m : Memory} (hm : Memory.wf s.params.fontBase m) : (s.setMem m).Inv := { h with mem_ok := hm }

/-- A run of bytes that ends within memory is stored. -/
theorem writeBytes {a : Nat} {bs : List Byte} (ha : a + bs.length ≤ memSize) :
    (s.setMem (Memory.writeBytes s.params.fontBase s.mem a bs)).Inv :=
  h.setMem (Memory.wf_writeBytes _ bs _ a ha h.mem_ok)

theorem jump {w : Word} (hw : w.toNat ≤ pcLimit s.params) : (s.jump w).Inv := { h with pc_le := hw }

/-- A frame is pushed, of an address a fetch can read from. -/
theorem push {w : Word} (hsp : s.sp < s.params.stackDepth) (hw : w.toNat ≤ 0xFFE) :
    (s.setStack (s.stack.set s.sp w) (s.sp + 1)).Inv where
  __ := h
  stack_length := by simpa using h.stack_length
  sp_le := hsp
  stack_fetched v hv := by
    obtain hv | rfl := List.mem_or_eq_of_mem_set hv
    · exact h.stack_fetched v hv
    · exact hw

theorem pop : (s.setStack s.stack (s.sp - 1)).Inv where
  __ := h
  sp_le := (Nat.sub_le ..).trans h.sp_le

/-- The entry a `RET` reads is an address a `CALL` was fetched from. -/
theorem getD_stack_le (k : Nat) : (s.stack.getD k 0).toNat ≤ 0xFFE := by
  by_cases hk : k < s.stack.length
  · rw [List.getD_eq_getElem _ _ hk]
    exact h.stack_fetched _ (List.getElem_mem hk)
  · rw [List.getD_eq_default _ _ (by omega)]
    decide

end

end State.Inv

/-! ## The bound on `pc` (R13, R141) -/

theorem le_pcLimit (p : Params) : 0x1002 ≤ pcLimit p := by
  unfold pcLimit
  split <;> omega

theorem toNat_add_le {w : Word} (k : Word) (hw : w.toNat ≤ 0xFFE) (hk : k.toNat ≤ 4) :
    (w + k).toNat ≤ 0x1002 := by
  rw [BitVec.toNat_add]
  omega

section
variable {s : State} (h : s.Inv) (hpc : s.pc.toNat ≤ 0xFFE)
include h hpc

theorem State.Inv.advance : s.advance.Inv := h.jump ((toNat_add_le 2 hpc (by decide)).trans (le_pcLimit _))

theorem State.Inv.skipIf (c : Bool) : (s.skipIf c).Inv := by
  refine h.jump (le_trans ?_ (le_pcLimit _))
  cases c
  · exact toNat_add_le 2 hpc (by decide)
  · exact toNat_add_le 4 hpc (by decide)

theorem State.Inv.aluToReg (op : AluOp) (x : Reg) (a b : Byte) : (s.aluToReg op x a b).Inv :=
  (h.writeReg x _).advance hpc

theorem State.Inv.aluToRegAndFlag (op : AluOp) (x : Reg) (a b : Byte) : (s.aluToRegAndFlag op x a b).Inv :=
  ((h.writeReg x _).writeReg flagReg _).advance hpc

end

theorem addrOperand_le_pcLimit (nnn : Addr12) (p : Params) : (addrOperand nnn).toNat ≤ pcLimit p := by
  have := nnn.isLt
  have := le_pcLimit p
  rw [toNat_addrOperand]
  omega

/-- The sum `nnn + V[0]` fits in 16 bits (R141). -/
theorem toNat_offsetOperand (s : State) (nnn : Addr12) :
    (s.offsetOperand nnn).toNat = nnn.toNat + (s.readReg 0).toNat := by
  have := nnn.isLt
  have := (s.readReg 0).isLt
  rw [State.offsetOperand, BitVec.toNat_ofNat]
  omega

/-! ## The invariant along a run -/

/-- An instruction fetched from memory keeps the invariant. -/
theorem exec_keeps_inv {i : Instr} {s t : State} (h : s.Inv) (hpc : s.pc.toNat ≤ 0xFFE) (hx : exec i s = .next t) :
    t.Inv := by
  cases i with
  | cls => cases hx; exact (h.setFb _).advance hpc
  | ret =>
    obtain ⟨-, he⟩ | ⟨-, he⟩ := exec_ret_cases s <;> cases he.symm.trans hx
    exact h.pop.jump ((toNat_add_le 2 (h.getD_stack_le _) (by decide)).trans (le_pcLimit _))
  | jp nnn => cases hx; exact h.jump (addrOperand_le_pcLimit ..)
  | call nnn =>
    obtain ⟨hsp, he⟩ | ⟨-, he⟩ := exec_call_cases nnn s <;> cases he.symm.trans hx
    exact (h.push hsp hpc).jump (addrOperand_le_pcLimit ..)
  | seImm | sneImm | seReg | sneReg | skp | sknp => cases hx; exact h.skipIf hpc _
  | ldImm | addImm | ldReg | or | and | xor | ldVxDt => cases hx; exact h.aluToReg hpc _ _ _ _
  | addReg | sub | shr | subn | shl => cases hx; exact h.aluToRegAndFlag hpc _ _ _ _
  | ldI | addI | ldF => cases hx; exact (h.setIndex _).advance hpc
  | ldIV0 nnn =>
    cases hb : s.params.bnnnTarget with
    | index => cases (exec_ldIV0_of_index nnn s hb).symm.trans hx; exact (h.setIndex _).advance hpc
    | pc =>
      cases (exec_ldIV0_of_pc nnn s hb).symm.trans hx
      have := nnn.isLt
      have := (s.readReg 0).isLt
      exact h.jump (by rw [toNat_offsetOperand]; simp only [pcLimit, hb]; omega)
  | rnd => cases hx; exact (h.setRng (prngNext s.params s.rng)).aluToReg hpc _ _ _ _
  | drw x y n =>
    obtain ⟨-, he⟩ | ⟨-, he⟩ := exec_drw_cases x y s n <;> cases he.symm.trans hx
    exact ((h.setFb _).writeReg flagReg _).advance hpc
  | ldVxK => cases hx; exact (h.setWait _).advance hpc
  | ldDtVx => cases hx; exact (h.setDt _).advance hpc
  | ldStVx => cases hx; exact (h.setSt _).advance hpc
  | ldB x =>
    obtain ⟨hi, he⟩ | ⟨-, he⟩ := exec_ldB_cases x s <;> cases he.symm.trans hx
    exact (h.writeBytes hi).advance hpc
  | ldMemVx x =>
    obtain ⟨hi, he⟩ | ⟨-, he⟩ := exec_ldMemVx_cases x s <;> cases he.symm.trans hx
    exact (h.writeBytes (by simpa using hi)).advance hpc
  | ldVxMem x =>
    obtain ⟨-, he⟩ | ⟨-, he⟩ := exec_ldVxMem_cases x s <;> cases he.symm.trans hx
    exact (h.writeBlock 0 _).advance (by rwa [writeBlock_pc])

theorem pc_le_of_fetchDecode {s : State} {i : Instr} (h : s.fetchDecode = .ok i) : s.pc.toNat ≤ 0xFFE := by
  obtain ⟨w, j, hpc, -⟩ | ⟨w, hpc, -⟩ | ⟨-, hf⟩ := fetchDecode_cases s
  · exact hpc
  · exact hpc
  · rw [hf] at h; cases h

/-- Settles O21: a wait tick writes no part the invariant speaks of, and the instruction of a real step was
fetched from an address of at most `0xFFE`. -/
theorem invariantKeptByEveryStep : Obligations.InvariantKeptByEveryStep := by
  intro s t h hstep
  obtain ⟨r, -, rfl⟩ | ⟨i, u, -, hi, hu, rfl⟩ := step_next_cases hstep
  · exact (h.waitCheck r _).consumeKey
  · exact (exec_keeps_inv h (pc_le_of_fetchDecode hi) hu).timersStep.consumeKey

/-- Settles O22: memory is the empty list, the stack is all zeros and `pc` is the program start. -/
theorem invariantHoldsAfterReset : Obligations.InvariantHoldsAfterReset := fun p hp =>
  { params_ok := hp
    mem_ok := Memory.wf_nil _
    stack_length := List.length_replicate
    sp_le := Nat.zero_le _
    stack_fetched := fun w hw => by rw [List.eq_of_mem_replicate hw]; decide
    pc_le := le_trans (show programStart ≤ 0x1002 by decide) (le_pcLimit p) }

theorem hostReset_keeps_inv {s : State} (h : s.Inv) : (hostReset s).Inv :=
  { invariantHoldsAfterReset s.params h.params_ok with }

theorem hostLoadProgram_keeps_inv {s : State} (h : s.Inv) (bytes : List Byte) : (hostLoadProgram bytes s).1.Inv := by
  unfold hostLoadProgram
  split
  case isTrue hfits =>
    have hlen : bytes.length ≤ memSize - programStart := by simpa [programFits] using hfits
    exact h.writeBytes (by simp only [memSize, programStart] at hlen ⊢; omega)
  case isFalse => exact h

theorem hostTick_keeps_inv {s : State} (h : s.Inv) (keys : Keypad) : (hostTick keys s).1.Inv := by
  unfold hostTick
  split
  case h_1 t ht => exact invariantKeptByEveryStep _ t (h.presentKey keys) ht
  case h_2 | h_3 => exact h

theorem applyHostOp_keeps_inv {s : State} (h : s.Inv) (op : HostOp) : (applyHostOp op s).1.Inv := by
  cases op with
  | reset => exact hostReset_keeps_inv h
  | loadProgram bytes => exact hostLoadProgram_keeps_inv h bytes
  | tick keys => exact hostTick_keeps_inv h keys

/-- Settles O23, by induction on the operations issued. -/
theorem invariantKeptByHostOperations : Obligations.InvariantKeptByHostOperations := by
  intro ops
  induction ops with
  | nil => exact fun s h => h
  | cons op ops ih => exact fun s h => ih _ (applyHostOp_keeps_inv h op)

end Sys2Proof.Machine

/-! What an instruction's effect depends on (spec/10_state.md R27, spec/40_step_and_dispatch.md R80). -/

namespace Sys2Proof.Machine

/-! ## Two answers of one instruction -/

/-- One instruction answers two states with the same error, or with next states that agree on every part it
writes, and on memory wherever the states agreed. -/
def AnswersAlike (i : Instr) (s s' : State) : Prop :=
  (∃ e, exec i s = .fault e ∧ exec i s' = .fault e) ∨
  (∃ t t', exec i s = .next t ∧ exec i s' = .next t' ∧
    (∀ p ∈ writtenParts s.params i, p ≠ .mem → p.Same t t') ∧
    (∀ a, s'.readByte a = s.readByte a → t'.readByte a = t.readByte a))

section
variable {i : Instr} {s s' t t' : State}

theorem AnswersAlike.of_fault {e : Fault} (h : exec i s = .fault e) (h' : exec i s' = .fault e) :
    AnswersAlike i s s' := .inl ⟨e, h, h'⟩

/-- Memory is no concern of an instruction that does not write it: both states keep their own. -/
theorem AnswersAlike.of_next (ht : exec i s = .next t) (ht' : exec i s' = .next t') (hp : s'.params = s.params)
    (hmem : .mem ∉ writtenParts s.params i) (hw : ∀ p ∈ writtenParts s.params i, p.Same t t') :
    AnswersAlike i s s' := by
  refine .inr ⟨t, t', ht, ht', fun p hpw _ => hw p hpw, fun a ha => ?_⟩
  have hs : t.readByte a = s.readByte a := accessMatrixWrites i s t ht .mem hmem a
  have hs' : t'.readByte a = s'.readByte a := accessMatrixWrites i s' t' ht' .mem (by rwa [hp]) a
  rw [hs, hs', ha]

/-- A store of the same bytes at the same address. -/
theorem AnswersAlike.of_store {a : Nat} {bs : List Byte} (hpc : s'.pc = s.pc)
    (hw : writtenParts s.params i = [.pc, .mem])
    (ht : exec i s = .next (s.setMem (Memory.writeBytes s.params.fontBase s.mem a bs)).advance)
    (ht' : exec i s' = .next (s'.setMem (Memory.writeBytes s'.params.fontBase s'.mem a bs)).advance) :
    AnswersAlike i s s' := by
  refine .inr ⟨_, _, ht, ht', ?_, fun q hq => ?_⟩
  · simp [hw, Part.Same, hpc]
  · simp only [readByte_advance, readByte_writeBytes, hq]

/-! ## Equal operands give equal results -/

theorem same_skipIf (hpc : s'.pc = s.pc) {c c' : Bool} (hc : c' = c) :
    ∀ p ∈ [Part.pc], p.Same (s.skipIf c) (s'.skipIf c') := by simp [Part.Same, hpc, hc]

theorem same_aluToReg (hpc : s'.pc = s.pc) {op : AluOp} (x : Reg) {a b a' b' : Byte}
    (hr : aluResult op a' b' = aluResult op a b) :
    ∀ p ∈ [Part.pc, .reg x], p.Same (s.aluToReg op x a b) (s'.aluToReg op x a' b') := by
  simp [Part.Same, State.aluToReg, hpc, hr]

theorem same_aluToRegAndFlag (hpc : s'.pc = s.pc) {op : AluOp} (x : Reg) {a b a' b' : Byte}
    (hr : aluResult op a' b' = aluResult op a b) (hf : aluFlag op a' b' = aluFlag op a b) :
    ∀ p ∈ [Part.pc, .reg x, .reg flagReg],
      p.Same (s.aluToRegAndFlag op x a b) (s'.aluToRegAndFlag op x a' b') := by
  simp [Part.Same, State.aluToRegAndFlag, State.writeFlag, readReg_writeReg, hpc, hr, hf]

theorem same_setIndex_advance (hpc : s'.pc = s.pc) {w w' : Word} (hw : w' = w) :
    ∀ p ∈ [Part.pc, .index], p.Same (s.setIndex w).advance (s'.setIndex w').advance := by
  simp [Part.Same, hpc, hw]

theorem key_congr (h : s'.keyFeed = s.keyFeed ∧ s'.keyCount = s.keyCount) : s'.key = s.key := by
  rw [State.key, State.key, h.1, h.2]

theorem shiftOperand_congr (x y : Reg) (hp : s'.params = s.params)
    (h : ∀ r, Part.reg r ∈ readParts s.params (.shr x y) → s'.readReg r = s.readReg r) :
    s'.shiftOperand x y = s.shiftOperand x y := by
  simp only [State.shiftOperand, hp]
  cases hsrc : s.params.shiftSource with
  | x => exact h x (by simp [readParts, hsrc])
  | y => exact h y (by simp [readParts, hsrc])

theorem readBlock_congr {x : Reg} (h : ∀ r : Reg, r.toNat ≤ x.toNat → s'.readReg r = s.readReg r) :
    s'.readBlock x = s.readBlock x := by
  refine List.map_congr_left fun k hk => h _ ?_
  rw [List.mem_range, blockLength] at hk
  rw [BitVec.toNat_ofNat]
  exact (Nat.mod_le ..).trans (by omega)

/-! ## The instructions with more than one answer -/

theorem answersAlike_call (nnn : Addr12) (hpc : s'.pc = s.pc) (hp : s'.params = s.params)
    (hst : s'.stack = s.stack ∧ s'.sp = s.sp) : AnswersAlike (.call nnn) s s' := by
  obtain ⟨h, hx⟩ | ⟨h, hx⟩ := exec_call_cases nnn s <;>
    obtain ⟨h', hx'⟩ | ⟨h', hx'⟩ := exec_call_cases nnn s' <;>
    rw [hp, hst.2] at h'
  · exact .of_next hx hx' hp (by simp [writtenParts]) (by simp [writtenParts, Part.Same, hpc, hst])
  · omega
  · omega
  · exact .of_fault hx hx'

theorem answersAlike_ret (hp : s'.params = s.params) (hst : s'.stack = s.stack ∧ s'.sp = s.sp) :
    AnswersAlike .ret s s' := by
  obtain ⟨h, hx⟩ | ⟨h, hx⟩ := exec_ret_cases s <;>
    obtain ⟨h', hx'⟩ | ⟨h', hx'⟩ := exec_ret_cases s' <;>
    rw [hst.2] at h'
  · exact .of_next hx hx' hp (by simp [writtenParts]) (by simp [writtenParts, Part.Same, hst])
  · omega
  · omega
  · exact .of_fault hx hx'

theorem answersAlike_ldIV0 (nnn : Addr12) (hpc : s'.pc = s.pc) (hp : s'.params = s.params)
    (h0 : s'.readReg 0 = s.readReg 0) : AnswersAlike (.ldIV0 nnn) s s' := by
  have hoff : s'.offsetOperand nnn = s.offsetOperand nnn := by rw [State.offsetOperand, h0]; rfl
  cases hb : s.params.bnnnTarget with
  | index =>
    refine .of_next (exec_ldIV0_of_index nnn s hb) (exec_ldIV0_of_index nnn s' (by rw [hp, hb])) hp
      (by simp [writtenParts, hb]) ?_
    simpa [writtenParts, hb] using same_setIndex_advance hpc hoff
  | pc =>
    exact .of_next (exec_ldIV0_of_pc nnn s hb) (exec_ldIV0_of_pc nnn s' (by rw [hp, hb])) hp
      (by simp [writtenParts, hb]) (by simp [writtenParts, hb, Part.Same, hoff])

/-- Equal parameters, framebuffer, sprite and coordinates give equal drawings. -/
theorem drawing_congr {x y : Reg} {n : Nibble} (hp : s'.params = s.params) (hfb : s'.fb = s.fb) (hi : s'.i = s.i)
    (hm : ∀ a, s'.readByte a = s.readByte a) (hx : s'.readReg x = s.readReg x) (hy : s'.readReg y = s.readReg y) :
    drawing s' x y n = drawing s x y n := by
  simp only [drawing, spriteRows, hp, hfb, hi, hm, hx, hy]

theorem answersAlike_drw (x y : Reg) (n : Nibble) (hpc : s'.pc = s.pc) (hp : s'.params = s.params) (hi : s'.i = s.i)
    (hfb : s'.fb = s.fb) (hm : ∀ a, s'.readByte a = s.readByte a) (hx : s'.readReg x = s.readReg x)
    (hy : s'.readReg y = s.readReg y) : AnswersAlike (.drw x y n) s s' := by
  have hd := drawing_congr (n := n) hp hfb hi hm hx hy
  obtain ⟨h, he⟩ | ⟨h, he⟩ := exec_drw_cases x y s n <;>
    obtain ⟨h', he'⟩ | ⟨h', he'⟩ := exec_drw_cases x y s' n <;>
    rw [hi] at h'
  · exact .of_next he he' hp (by simp [writtenParts]) (by simp [writtenParts, Part.Same, State.writeFlag, hpc, hd])
  · omega
  · omega
  · exact .of_fault he (by rw [he', hi])

theorem answersAlike_ldB (x : Reg) (hpc : s'.pc = s.pc) (hi : s'.i = s.i) (hx : s'.readReg x = s.readReg x) :
    AnswersAlike (.ldB x) s s' := by
  obtain ⟨h, he⟩ | ⟨h, he⟩ := exec_ldB_cases x s <;>
    obtain ⟨h', he'⟩ | ⟨h', he'⟩ := exec_ldB_cases x s' <;>
    rw [hi] at h' he'
  · rw [hx] at he'; exact .of_store hpc rfl he he'
  · omega
  · omega
  · exact .of_fault he he'

theorem answersAlike_ldMemVx (x : Reg) (hpc : s'.pc = s.pc) (hi : s'.i = s.i)
    (hreg : ∀ r : Reg, r.toNat ≤ x.toNat → s'.readReg r = s.readReg r) : AnswersAlike (.ldMemVx x) s s' := by
  obtain ⟨h, he⟩ | ⟨h, he⟩ := exec_ldMemVx_cases x s <;>
    obtain ⟨h', he'⟩ | ⟨h', he'⟩ := exec_ldMemVx_cases x s' <;>
    rw [hi] at h' he'
  · rw [readBlock_congr hreg] at he'; exact .of_store hpc rfl he he'
  · omega
  · omega
  · exact .of_fault he he'

/-- The same bytes loaded into the same registers. -/
theorem same_writeBlock_advance (hpc : s'.pc = s.pc) (x : Reg) {bs : List Byte} (hlen : bs.length = x.toNat + 1) :
    ∀ p ∈ Part.pc :: blockParts x, p.Same (s.writeBlock 0 bs).advance (s'.writeBlock 0 bs).advance := by
  intro p hp
  rw [List.mem_cons, mem_blockParts] at hp
  obtain rfl | ⟨r, hr, rfl⟩ := hp
  · simp [Part.Same, hpc]
  · have := x.isLt
    have hin : 0 ≤ r.toNat ∧ r.toNat < 0 + bs.length := by omega
    simp only [Part.Same, readReg_advance]
    rw [readReg_writeBlock _ _ _ _ (by omega), readReg_writeBlock _ _ _ _ (by omega), if_pos hin, if_pos hin]

theorem answersAlike_ldVxMem (x : Reg) (hpc : s'.pc = s.pc) (hp : s'.params = s.params) (hi : s'.i = s.i)
    (hm : ∀ a, s'.readByte a = s.readByte a) : AnswersAlike (.ldVxMem x) s s' := by
  have hbytes : loadedBytes s' x = loadedBytes s x := by rw [loadedBytes, hi, funext hm]; rfl
  obtain ⟨h, he⟩ | ⟨h, he⟩ := exec_ldVxMem_cases x s <;>
    obtain ⟨h', he'⟩ | ⟨h', he'⟩ := exec_ldVxMem_cases x s' <;>
    rw [hi] at h'
  · rw [hbytes] at he'
    exact .of_next he he' hp (by simp [writtenParts, mem_blockParts])
      (same_writeBlock_advance hpc x (length_loadedBytes s x))
  · omega
  · omega
  · exact .of_fault he (by rw [he', hi])

end

theorem pc_mem_readParts (p : Params) (i : Instr) : .pc ∈ readParts p i := by
  cases i with
  | shr | shl => simp only [readParts]; split <;> simp
  | _ => simp [readParts]

theorem params_mem_readParts (p : Params) (i : Instr) : .params ∈ readParts p i := by
  cases i with
  | shr | shl => simp only [readParts]; split <;> simp
  | _ => simp [readParts]

/-- Settles O20: instruction by instruction, the operands named in its row of the matrix are all that its
operations take. -/
theorem accessMatrixReads : Obligations.AccessMatrixReads := by
  intro i s s' h
  change AnswersAlike i s s'
  have hpc : s'.pc = s.pc := h .pc (pc_mem_readParts _ i)
  have hp : s'.params = s.params := h .params (params_mem_readParts _ i)
  have hreg (r : Reg) (hr : .reg r ∈ readParts s.params i) : s'.readReg r = s.readReg r := h (.reg r) hr
  cases i with
  | cls =>
    exact .of_next (exec_cls s) (exec_cls s') hp (by simp [writtenParts]) (by simp [writtenParts, Part.Same, hpc])
  | ret => exact answersAlike_ret hp (h .stack (by simp [readParts]))
  | jp nnn =>
    exact .of_next (exec_jp nnn s) (exec_jp nnn s') hp (by simp [writtenParts]) (by simp [writtenParts, Part.Same])
  | call nnn => exact answersAlike_call nnn hpc hp (h .stack (by simp [readParts]))
  | seImm x nn | sneImm x nn =>
    have hx := hreg x (by simp [readParts])
    exact .of_next rfl rfl hp (by simp [writtenParts]) (same_skipIf hpc (by rw [hx]))
  | seReg x y | sneReg x y =>
    have hx := hreg x (by simp [readParts])
    have hy := hreg y (by simp [readParts])
    exact .of_next rfl rfl hp (by simp [writtenParts]) (same_skipIf hpc (by rw [hx, hy]))
  | skp x | sknp x =>
    have hx := hreg x (by simp [readParts])
    have hk : s'.key = s.key := key_congr (h .keys (by simp [readParts]))
    exact .of_next rfl rfl hp (by simp [writtenParts]) (same_skipIf hpc (by rw [hk, State.keyOperand, hx]; rfl))
  | ldImm x nn => exact .of_next rfl rfl hp (by simp [writtenParts]) (same_aluToReg hpc x rfl)
  | addImm x nn =>
    have hx := hreg x (by simp [readParts])
    exact .of_next rfl rfl hp (by simp [writtenParts]) (same_aluToReg hpc x (by rw [hx]))
  | ldReg x y => exact .of_next rfl rfl hp (by simp [writtenParts]) (same_aluToReg hpc x (hreg y (by simp [readParts])))
  | ldVxDt x => exact .of_next rfl rfl hp (by simp [writtenParts]) (same_aluToReg hpc x (h .dt (by simp [readParts])))
  | or x y | and x y | xor x y =>
    have hx := hreg x (by simp [readParts])
    have hy := hreg y (by simp [readParts])
    exact .of_next rfl rfl hp (by simp [writtenParts]) (same_aluToReg hpc x (by rw [hx, hy]))
  | addReg x y | sub x y | subn x y =>
    have hx := hreg x (by simp [readParts])
    have hy := hreg y (by simp [readParts])
    exact .of_next rfl rfl hp (by simp [writtenParts]) (same_aluToRegAndFlag hpc x (by rw [hx, hy]) (by rw [hx, hy]))
  | shr x y | shl x y =>
    have hsrc := shiftOperand_congr x y hp fun r hr => hreg r (by simpa [readParts] using hr)
    refine .of_next rfl rfl hp (by simp [writtenParts]) (same_aluToRegAndFlag hpc x ?_ ?_) <;> rw [hsrc] <;> rfl
  | ldI nnn => exact .of_next rfl rfl hp (by simp [writtenParts]) (same_setIndex_advance hpc rfl)
  | addI x =>
    have hx := hreg x (by simp [readParts])
    have hi : s'.i = s.i := h .index (by simp [readParts])
    exact .of_next rfl rfl hp (by simp [writtenParts]) (same_setIndex_advance hpc (by rw [hx, hi]))
  | ldF x =>
    have hx := hreg x (by simp [readParts])
    exact .of_next rfl rfl hp (by simp [writtenParts])
      (same_setIndex_advance hpc (by rw [State.glyphAddress, hp, hx]; rfl))
  | ldIV0 nnn => exact answersAlike_ldIV0 nnn hpc hp (hreg 0 (by simp [readParts]))
  | rnd x nn =>
    have hr : s'.rng = s.rng := h .rng (by simp [readParts])
    exact .of_next (exec_rnd x nn s) (exec_rnd x nn s') hp (by simp [writtenParts])
      (by simp [writtenParts, Part.Same, State.aluToReg, hpc, hp, hr])
  | drw x y n =>
    exact answersAlike_drw x y n hpc hp (h .index (by simp [readParts])) (h .fb (by simp [readParts]))
      (h .mem (by simp [readParts])) (hreg x (by simp [readParts])) (hreg y (by simp [readParts]))
  | ldVxK x =>
    exact .of_next (exec_ldVxK x s) (exec_ldVxK x s') hp (by simp [writtenParts])
      (by simp [writtenParts, Part.Same, hpc])
  | ldDtVx x | ldStVx x =>
    have hx := hreg x (by simp [readParts])
    exact .of_next rfl rfl hp (by simp [writtenParts]) (by simp [writtenParts, Part.Same, hpc, hx])
  | ldB x => exact answersAlike_ldB x hpc (h .index (by simp [readParts])) (hreg x (by simp [readParts]))
  | ldMemVx x =>
    exact answersAlike_ldMemVx x hpc (h .index (by simp [readParts])) fun r hr =>
      hreg r (by simp [readParts, mem_blockParts, hr])
  | ldVxMem x => exact answersAlike_ldVxMem x hpc hp (h .index (by simp [readParts])) (h .mem (by simp [readParts]))

end Sys2Proof.Machine

/-! The step: fetch, what it answers, and its errors (spec/40_step_and_dispatch.md, spec/60_exceptions.md). -/

namespace Sys2Proof.Machine

/-! ## Fetch (R35, R72) -/

theorem fetch_of_le {s : State} (hpc : s.pc.toNat ≤ 0xFFE) :
    s.fetch = .ok (s.readByte s.pc.toNat ++ s.readByte (s.pc.toNat + 1)) := by
  rw [State.fetch, (firstOutside_eq_none _ 2).2 (.inr (by simp only [memSize]; omega))]
  rfl

theorem fetch_of_gt {s : State} (hpc : 0xFFE < s.pc.toNat) :
    s.fetch = .error (.outOfBounds (max s.pc.toNat memSize)) := by
  rw [State.fetch, (firstOutside_eq_some _ 2 _).2 ⟨by simp only [memSize]; omega, by omega, rfl⟩]

theorem fetchDecode_of_decodable {s : State} {w : Word} {i : Instr} (hf : s.fetch = .ok w) (hd : decode w = some i) :
    s.fetchDecode = .ok i := by rw [State.fetchDecode, hf]; simp only [hd]

theorem fetchDecode_of_undecodable {s : State} {w : Word} (hf : s.fetch = .ok w) (hd : decode w = none) :
    s.fetchDecode = .error (.undecodable w) := by rw [State.fetchDecode, hf]; simp only [hd]

theorem fetchDecode_of_gt {s : State} (hpc : 0xFFE < s.pc.toNat) :
    s.fetchDecode = .error (.outOfBounds (max s.pc.toNat memSize)) := by
  rw [State.fetchDecode, fetch_of_gt hpc]

/-- Settles O8: the check is that of the two addresses `pc` and `pc + 1`. -/
theorem fetchReadsTwoBytesOrReports : Obligations.FetchReadsTwoBytesOrReports := by
  refine fun s => ⟨fetch_of_le, fun h => ?_, fun h => ?_⟩
  · rw [fetch_of_gt (by omega), h]; rfl
  · rw [fetch_of_gt (by omega), max_eq_left (show memSize ≤ _ from h)]

/-! ## What a step answers (R70, R71) -/

section
variable {s t u : State} {i : Instr} {e : Fault}

theorem step_of_waiting {r : Reg} (hw : s.wait = .awaitingKey r) :
    step s = .next (s.waitCheck r s.key).consumeKey := by simp only [step, hw]

theorem step_of_fetch_error (hw : s.wait = .running) (hf : s.fetchDecode = .error e) : step s = .fault e := by
  simp only [step, hw, hf, raise]

theorem step_of_exec_next (hw : s.wait = .running) (hf : s.fetchDecode = .ok i) (hx : exec i s = .next u) :
    step s = .next u.timersStep.consumeKey := by simp only [step, hw, hf, hx]

theorem step_of_exec_fault (hw : s.wait = .running) (hf : s.fetchDecode = .ok i) (hx : exec i s = .fault e) :
    step s = .fault e := by simp only [step, hw, hf, hx]

/-- All the ways a step can end with an error. -/
theorem step_fault_cases (h : step s = .fault e) :
    s.wait = .running ∧ (s.fetchDecode = .error e ∨ ∃ i, s.fetchDecode = .ok i ∧ exec i s = .fault e) := by
  unfold step at h
  split at h
  case h_1 => cases h
  case h_2 hw =>
    refine ⟨hw, ?_⟩
    split at h
    case h_1 hf => cases h; exact .inl hf
    case h_2 i hf =>
      split at h
      case h_2 hx => cases h; exact .inr ⟨i, hf, hx⟩
      all_goals cases h

end

@[simp] theorem consumeKey_keyFeed (s : State) : s.consumeKey.keyFeed = s.keyFeed.tail := by
  unfold State.consumeKey; split <;> simp [*]

theorem consumeKey_keyCount (s : State) :
    s.consumeKey.keyCount = if s.keyFeed = [] then s.keyCount + 1 else s.keyCount := by
  unfold State.consumeKey; split <;> simp [*]

/-- The end of a real step writes the timers and the keypad input alone. -/
theorem onlyChanges_endOfStep (s : State) : OnlyChanges s s.timersStep.consumeKey [.dt, .st, .keys] :=
  (onlyChanges_timersStep s).trans (onlyChanges_consumeKey _)

/-- Settles O7: the fetched bytes are the word decoded, and a completed instruction is followed by
`State.timersStep` and `State.consumeKey`. -/
theorem stepRunsTheDecodedInstruction : Obligations.StepRunsTheDecodedInstruction := by
  intro s i hw hpc hd
  have hf := fetchDecode_of_decodable (fetch_of_le hpc) hd
  refine ⟨fun t ht => ⟨_, step_of_exec_next hw hf ht, ?_, ?_, ?_, ?_, onlyChanges_endOfStep t⟩,
    fun e he => step_of_exec_fault hw hf he⟩
  · simp [countDown_toNat]
  · simp [countDown_toNat]
  · simp
  · rw [consumeKey_keyCount]; rfl

/-- Settles O9: the error of fetch or decode is the step's. -/
theorem stepRaisesFetchAndDecodeErrors : Obligations.StepRaisesFetchAndDecodeErrors := fun _ hw =>
  ⟨fun hpc => step_of_fetch_error hw (fetchDecode_of_gt hpc),
   fun _ hf hd => step_of_fetch_error hw (fetchDecode_of_undecodable hf hd)⟩

/-- Settles O60: `hostGetOpcode` is the step's own fetch and decode. -/
theorem peekPredictsTheStep : Obligations.PeekPredictsTheStep := fun _ =>
  ⟨fun _ => rfl, fun _ hw he => step_of_fetch_error hw he, fun _ _ hw hi ht => step_of_exec_next hw hi ht⟩

/-! ## Errors (R220 to R233) -/

/-- Settles O11: fetch and decode refuse nothing, and no instruction does. -/
theorem stepIsNeverRefused : Obligations.StepIsNeverRefused := by
  intro s r h
  unfold step at h
  split at h
  case h_1 => cases h
  case h_2 =>
    split at h
    case h_1 => cases h
    case h_2 i _ =>
      split at h
      case h_3 hx => exact exec_ne_refused i s _ hx
      all_goals cases h

/-- Settles O10: a step's error is that of fetch, of decode, or the instruction's own. -/
theorem stepErrorsAreTheListedOnes : Obligations.StepErrorsAreTheListedOnes := by
  intro s e h
  obtain ⟨hw, hf | ⟨i, hi, hx⟩⟩ := step_fault_cases h
  · refine ⟨hw, ?_⟩
    by_cases hpc : s.pc.toNat ≤ 0xFFE
    · cases hd : decode (s.readByte s.pc.toNat ++ s.readByte (s.pc.toNat + 1)) with
      | some i => cases (fetchDecode_of_decodable (fetch_of_le hpc) hd).symm.trans hf
      | none =>
        cases (fetchDecode_of_undecodable (fetch_of_le hpc) hd).symm.trans hf
        exact .inr (.inl ⟨_, fetch_of_le hpc, hd, rfl⟩)
    · have hpc : 0xFFE < s.pc.toNat := by omega
      cases (fetchDecode_of_gt hpc).symm.trans hf
      exact .inl ⟨hpc, rfl⟩
  · refine ⟨hw, .inr (.inr ?_)⟩
    cases execError_of_fault hx with
    | call nnn hsp => exact .inl ⟨nnn, hi, hsp, rfl⟩
    | ret hsp => exact .inr (.inl ⟨hi, hsp, rfl⟩)
    | drw x y n hend hn => exact .inr (.inr ⟨_, _, hi, .inl ⟨x, y, n, rfl, rfl, hn⟩, hend, rfl⟩)
    | ldB x hend => exact .inr (.inr ⟨_, _, hi, .inr (.inl ⟨x, rfl, rfl⟩), hend, rfl⟩)
    | ldMemVx x hend => exact .inr (.inr ⟨_, _, hi, .inr (.inr (.inl ⟨x, rfl, rfl⟩)), hend, rfl⟩)
    | ldVxMem x hend => exact .inr (.inr ⟨_, _, hi, .inr (.inr (.inr ⟨x, rfl, rfl⟩)), hend, rfl⟩)

/-- An instruction that can raise reads no key. -/
theorem ExecError.keys_notMem_readParts {i : Instr} {s : State} {e : Fault} (h : ExecError s i e) (p : Params) :
    .keys ∉ readParts p i := by
  cases h <;> simp [readParts, mem_blockParts]

/-- An instruction's error does not depend on the keypad snapshot. -/
theorem exec_fault_presentKey {i : Instr} {s : State} {e : Fault} {k : Keypad} (l : Keypad)
    (h : exec i (s.presentKey k) = .fault e) : exec i (s.presentKey l) = .fault e := by
  have hkeys := (execError_of_fault h).keys_notMem_readParts (s.presentKey k).params
  have hsame : ∀ p ∈ readParts (s.presentKey k).params i, p.Same (s.presentKey k) (s.presentKey l) := by
    intro p hp
    have hne : p ≠ .keys := fun heq => hkeys (heq ▸ hp)
    cases p <;> simp_all [Part.Same]
  obtain ⟨e', he, he'⟩ | ⟨t, -, ht, -⟩ := accessMatrixReads i _ _ hsame
  · cases he.symm.trans h; exact he'
  · cases ht.symm.trans h

theorem step_fault_presentKey {s : State} {e : Fault} {k : Keypad} (l : Keypad)
    (h : step (s.presentKey k) = .fault e) : step (s.presentKey l) = .fault e := by
  obtain ⟨hw, hf | ⟨i, hi, hx⟩⟩ := step_fault_cases h
  · exact step_of_fetch_error hw hf
  · exact step_of_exec_fault hw hi (exec_fault_presentKey l hx)

theorem hostTick_eq_error {s t : State} {keys : Keypad} {e : Fault} :
    hostTick keys s = (t, .error e) ↔ t = s ∧ step (s.presentKey keys) = .fault e := by
  unfold hostTick
  cases step (s.presentKey keys) <;> simp [eq_comm]

/-- Settles O13: an error tick answers the state it was given, and the error is one no keypad snapshot
changes. -/
theorem errorTickChangesNothingAndRecurs : Obligations.ErrorTickChangesNothingAndRecurs := by
  intro s t keys e h
  obtain ⟨ht, hstep⟩ := hostTick_eq_error.1 h
  exact ⟨ht, fun later => hostTick_eq_error.2 ⟨rfl, step_fault_presentKey later hstep⟩⟩

end Sys2Proof.Machine

/-! A placed word, the key-wait, and the rules of the whole machine (spec/46_keys_and_timers.md, spec/10_state.md R26,
R27). -/

namespace Sys2Proof.Machine

/-! ## A word placed for the next fetch (log entry 10) -/

/-- Where `State.placeWord` puts its word: an address a fetch can read from. -/
def placePc (s : State) : Word := if s.canFetch then s.pc else BitVec.ofNat 16 programStart

theorem placeWord_eq (s : State) (w : Word) : s.placeWord w = ((s.jump (placePc s)).setWait .running).setMem
    (Memory.writeBytes s.params.fontBase s.mem (placePc s).toNat [hiByte w, loByte w]) := rfl

theorem canFetch_iff (s : State) : s.canFetch = true ↔ s.pc.toNat ≤ 0xFFE := by
  rw [State.canFetch, decide_eq_true_eq, memSize]
  omega

theorem placePc_of_le {s : State} (hpc : s.pc.toNat ≤ 0xFFE) : placePc s = s.pc := if_pos ((canFetch_iff s).2 hpc)

theorem placePc_le (s : State) : (placePc s).toNat ≤ 0xFFE := by
  unfold placePc
  split
  case isTrue h => exact (canFetch_iff s).1 h
  case isFalse => decide

/-- A byte after a word is placed: one of the two bytes of the word, or the old one. -/
theorem readByte_placeWord (s : State) (w : Word) (a : Nat) : (s.placeWord w).readByte a =
    if (placePc s).toNat ≤ a ∧ a < (placePc s).toNat + 2 then [hiByte w, loByte w].getD (a - (placePc s).toNat) 0
    else s.readByte a := by
  rw [placeWord_eq]
  exact readByte_writeBytes ((s.jump (placePc s)).setWait .running) _ a [hiByte w, loByte w]

theorem fetch_placeWord (s : State) (w : Word) : (s.placeWord w).fetch = .ok w := by
  have hpc : (s.placeWord w).pc = placePc s := rfl
  rw [fetch_of_le (by rw [hpc]; exact placePc_le s), hpc, readByte_placeWord, readByte_placeWord,
    if_pos ⟨le_rfl, by omega⟩, if_pos ⟨by omega, by omega⟩, Nat.sub_self, Nat.add_sub_cancel_left]
  exact congrArg Except.ok (wordOfBytes_hi_lo w)

theorem onlyChanges_placeWord (s : State) (w : Word) : OnlyChanges s (s.placeWord w) [.pc, .wait, .mem] := by
  rw [placeWord_eq]
  exact ((onlyChanges_jump s _).trans (onlyChanges_setWait _ _)).trans (onlyChanges_setMem _ _)

theorem tableWord_sixteen (w : Nat) : tableWord 16 w = BitVec.ofNat 16 w :=
  BitVec.eq_of_toNat_eq (by simp [tableWord])

/-- Settles O14: the two bytes of the word stand where the next fetch reads them. -/
theorem placedWordIsFetchedNext : Obligations.PlacedWordIsFetchedNext := by
  intro s w _
  rw [State.withFetchWord, tableWord_sixteen]
  refine ⟨rfl, fetch_placeWord s _, fun hpc => placePc_of_le hpc, onlyChanges_placeWord s _, fun a ha => ?_⟩
  rw [readByte_placeWord]
  exact if_neg ha

/-! ## The key-wait machine (R196 to R199) -/

/-- A wait tick that finds its key writes the key's number and ends the wait. -/
theorem waitTick_of_some {s : State} {r : Reg} {b : Byte} (hw : s.wait = .awaitingKey r)
    (hk : s.awaitedKey r s.key = some b) : ∃ t, step s = .next t ∧ t.readReg r = b ∧ t.wait = .running ∧
      OnlyChanges s t [.reg r, .wait, .keys] := by
  have hcheck : s.waitCheck r s.key = (s.writeReg r b).setWait .running := by simp only [State.waitCheck, hk]
  refine ⟨_, step_of_waiting hw, ?_, ?_, ?_⟩ <;> rw [hcheck]
  · simp
  · simp
  · exact ((onlyChanges_writeReg s r b).trans (onlyChanges_setWait _ _)).trans (onlyChanges_consumeKey _)

/-- A wait tick that does not find its key uses its snapshot up and does nothing else. -/
theorem waitTick_of_none {s : State} {r : Reg} (hw : s.wait = .awaitingKey r) (hk : s.awaitedKey r s.key = none) :
    ∃ t, step s = .next t ∧ OnlyChanges s t [.keys] := by
  have hcheck : s.waitCheck r s.key = s := by simp only [State.waitCheck, hk]
  exact ⟨_, step_of_waiting hw, by rw [hcheck]; exact onlyChanges_consumeKey s⟩

/-- Settles O15: the key awaited is the least one pressed. -/
theorem waitTickTakesTheLowestKey : Obligations.WaitTickTakesTheLowestKey := by
  intro s r hw hpolicy
  constructor
  · intro k hk hpressed hleast
    have hlow : lowestKey s.key = some k := (lowestKey_eq_some _ _).2 ⟨hk, hpressed, hleast⟩
    have hawait : s.awaitedKey r s.key = some (BitVec.ofNat 8 k) := by simp [State.awaitedKey, hpolicy, hlow]
    obtain ⟨t, ht, hreg, hrest⟩ := waitTick_of_some hw hawait
    refine ⟨t, ht, ?_, hrest⟩
    rw [hreg, BitVec.toNat_ofNat]
    omega
  · intro hkey
    have hlow : lowestKey s.key = none := (lowestKey_eq_none _).2 fun k => by simp [keyPressed, hkey]
    exact waitTick_of_none hw (by simp [State.awaitedKey, hpolicy, hlow])

/-- The key a register's value names is its number modulo 16 (R193). -/
theorem keyOperand_eq (s : State) (x : Reg) : s.keyOperand x = (s.readReg x).toNat % 16 := by
  simp [State.keyOperand, lowNibble]

/-- The two policies of R199 await one key, and answer its number. -/
theorem awaitedKey_of_one {s : State} {r : Reg} {k : Nat} (keys : Keypad)
    (h : s.params.keyWaitPolicy = .regValue ∧ k = (s.readReg r).toNat % 16 ∨
      s.params.keyWaitPolicy = .regIndex ∧ k = r.toNat) :
    s.awaitedKey r keys = if keys.getLsbD k then some (BitVec.ofNat 8 k) else none := by
  obtain ⟨hpolicy, rfl⟩ | ⟨hpolicy, rfl⟩ := h
  · simp only [State.awaitedKey, hpolicy, keyOperand_eq, keyPressed]
  · simp only [State.awaitedKey, hpolicy, keyPressed]; rfl

/-- Settles O16: the key awaited is the one the policy names. -/
theorem waitTickUnderTheOtherPolicies : Obligations.WaitTickUnderTheOtherPolicies := by
  intro s r k hw hpolicy
  have hawait := awaitedKey_of_one s.key hpolicy
  constructor
  · intro hpressed
    obtain ⟨t, ht, hreg, hrest⟩ := waitTick_of_some hw (hawait.trans (if_pos hpressed))
    refine ⟨t, ht, ?_, hrest⟩
    rw [hreg, BitVec.toNat_ofNat]
    have := r.isLt
    omega
  · intro hpressed
    exact waitTick_of_none hw (hawait.trans (if_neg (by simp [hpressed])))

/-! ## Rules of the whole machine, from the access matrix -/

/-- The latch, the timers and the generator have one writer each (R27). -/
theorem writer_unique (p : Params) (i : Instr) :
    (.wait ∈ writtenParts p i → ∃ x, i = .ldVxK x) ∧ (.dt ∈ writtenParts p i → ∃ x, i = .ldDtVx x) ∧
    (.st ∈ writtenParts p i → ∃ x, i = .ldStVx x) ∧ (.rng ∈ writtenParts p i → ∃ x nn, i = .rnd x nn) := by
  cases i with
  | ldIV0 => simp only [writtenParts]; split <;> simp
  | _ => simp [writtenParts, mem_blockParts]

section
variable {i : Instr} {s u : State} (hx : exec i s = .next u)
include hx

theorem exec_wait_eq (hi : ∀ x, i ≠ .ldVxK x) : u.wait = s.wait :=
  accessMatrixWrites i s u hx .wait fun hmem => by
    obtain ⟨hwriter, -⟩ := writer_unique s.params i
    exact (hwriter hmem).elim hi

theorem exec_dt_eq (hi : ∀ x, i ≠ .ldDtVx x) : u.dt = s.dt :=
  accessMatrixWrites i s u hx .dt fun hmem => by
    obtain ⟨-, hwriter, -⟩ := writer_unique s.params i
    exact (hwriter hmem).elim hi

theorem exec_st_eq (hi : ∀ x, i ≠ .ldStVx x) : u.st = s.st :=
  accessMatrixWrites i s u hx .st fun hmem => by
    obtain ⟨-, -, hwriter, -⟩ := writer_unique s.params i
    exact (hwriter hmem).elim hi

theorem exec_rng_eq (hi : ∀ x nn, i ≠ .rnd x nn) : u.rng = s.rng :=
  accessMatrixWrites i s u hx .rng fun hmem => by
    obtain ⟨-, -, -, hwriter⟩ := writer_unique s.params i
    obtain ⟨x, nn, rfl⟩ := hwriter hmem
    exact hi x nn rfl

end

/-- Settles O17: `LD Vx, K` is the one writer of the latch. -/
theorem onlyAwaitKeyStartsAWait : Obligations.OnlyAwaitKeyStartsAWait := by
  intro s t hw h
  obtain ⟨r, hr, -⟩ | ⟨i, u, -, hi, hu, rfl⟩ := step_next_cases h
  · cases hw.symm.trans hr
  · by_cases hk : ∃ x, i = .ldVxK x
    · obtain ⟨x, rfl⟩ := hk
      cases hu
      exact .inl ⟨x, hi, by simp⟩
    · have hne : ∀ x, i ≠ .ldVxK x := fun x hx => hk ⟨x, hx⟩
      refine .inr ⟨fun x hx => hne x (Except.ok.inj (hi.symm.trans hx)), ?_⟩
      rw [consumeKey_wait, timersStep_wait, exec_wait_eq hu hne, hw]

/-- Settles O25: each timer has one writer, and the countdown never raises a timer. -/
theorem timersRiseOnlyWhenWritten : Obligations.TimersRiseOnlyWhenWritten := by
  intro s t h
  refine ⟨?_, ?_, (timersCountRealSteps s t h).2⟩ <;>
    obtain ⟨r, -, rfl⟩ | ⟨i, u, -, hi, hu, rfl⟩ := step_next_cases h
  · simp
  · intro hdt
    have := exec_dt_eq hu fun x hx => hdt x (by rw [hi, hx])
    simp [countDown_toNat, this]
  · simp
  · intro hst
    have := exec_st_eq hu fun x hx => hst x (by rw [hi, hx])
    simp [countDown_toNat, this]

@[simp] theorem waitCheck_rng (s : State) (r : Reg) (keys : Keypad) : (s.waitCheck r keys).rng = s.rng := by
  obtain ⟨-, h⟩ | ⟨b, -, h⟩ := waitCheck_cases s r keys <;> simp [h]

/-- The recurrence of the generator (R161). -/
theorem toNat_prngNext (p : Params) (b : Byte) :
    (prngNext p b).toNat = (p.prngMul.toNat * b.toNat + p.prngInc.toNat) % 256 := BitVec.toNat_ofNat ..

/-- Settles O26: `RND` is the one writer of the generator, and a wait tick does not write it. -/
theorem generatorAdvancesOnlyByRnd : Obligations.GeneratorAdvancesOnlyByRnd := by
  intro s t h
  obtain ⟨r, hr, rfl⟩ | ⟨i, u, hw, hi, hu, rfl⟩ := step_next_cases h
  · exact .inr ⟨fun hw => (by cases hw.symm.trans hr), by simp⟩
  · by_cases hrnd : ∃ x nn, i = .rnd x nn
    · obtain ⟨x, nn, rfl⟩ := hrnd
      cases hu
      refine .inl ⟨x, nn, hw, hi, ?_⟩
      rw [consumeKey_rng, timersStep_rng, ← toNat_prngNext]
      rfl
    · have hne : ∀ x nn, i ≠ .rnd x nn := fun x nn hx => hrnd ⟨x, nn, hx⟩
      refine .inr ⟨fun _ x nn hx => hne x nn (Except.ok.inj (hi.symm.trans hx)), ?_⟩
      rw [consumeKey_rng, timersStep_rng, exec_rng_eq hu hne]

/-- Settles O27: the jump puts `pc` where it stands, so only the end of the step changes anything. -/
theorem selfJumpChangesOnlyTimers : Obligations.SelfJumpChangesOnlyTimers := by
  intro s nnn hw hf hpc
  have htarget : addrOperand nnn = s.pc := BitVec.eq_of_toNat_eq (by rw [toNat_addrOperand, hpc])
  have hx : exec (.jp nnn) s = .next s := by rw [exec_jp, htarget]; rfl
  refine ⟨_, step_of_exec_next hw hf hx, ?_, ?_, onlyChanges_endOfStep s⟩ <;> simp [countDown_toNat]

/-- Settles O19: every other instruction ends in `State.advance`. -/
theorem otherInstructionsAdvanceByTwo : Obligations.OtherInstructionsAdvanceByTwo := by
  intro i s t h hrow htarget
  have hadv : t.pc = s.pc + 2 → t.pc.toNat = (s.pc.toNat + 2) % 65536 := fun e => by rw [e, BitVec.toNat_add]; rfl
  apply hadv
  cases i with
  | ret | jp | call | seImm | sneImm | seReg | sneReg | skp | sknp => simp [Instr.row] at hrow
  | ldIV0 nnn => cases (exec_ldIV0_of_index nnn s (htarget rfl)).symm.trans h; rfl
  | drw x y n => obtain ⟨-, hx⟩ | ⟨-, hx⟩ := exec_drw_cases x y s n <;> cases hx.symm.trans h; rfl
  | ldB x => obtain ⟨-, hx⟩ | ⟨-, hx⟩ := exec_ldB_cases x s <;> cases hx.symm.trans h; rfl
  | ldMemVx x => obtain ⟨-, hx⟩ | ⟨-, hx⟩ := exec_ldMemVx_cases x s <;> cases hx.symm.trans h; rfl
  | ldVxMem x =>
    obtain ⟨-, hx⟩ | ⟨-, hx⟩ := exec_ldVxMem_cases x s <;> cases hx.symm.trans h
    simp
  | _ => cases h; rfl

end Sys2Proof.Machine

/-! Control transfer and skips, and the flags of the ALU instructions (spec/41_control_and_skip.md,
spec/42_alu.md). -/

namespace Sys2Proof.Machine

/-! ## The return stack (R92, R93) -/

/-- Settles O29: the slot at `SP` takes the address of the `CALL`. -/
theorem callPushesItsOwnAddress : Obligations.CallPushesItsOwnAddress := by
  intro nnn s hlen
  obtain ⟨hsp, hx⟩ | ⟨hsp, hx⟩ := exec_call_cases nnn s
  · refine ⟨fun _ => ⟨_, hx, ?_, rfl, ?_, fun k hk => ?_, accessMatrixWrites _ _ _ hx⟩, fun h => by omega⟩
    · simp
    · simp [hlen, hsp]
    · simp [List.getElem?_set_ne hk.symm]
  · exact ⟨fun h => by omega, fun _ => hx⟩

/-- Settles O30: the entry below `SP` is read and left where it stands. -/
theorem returnResumesAfterTheCall : Obligations.ReturnResumesAfterTheCall := by
  intro s _ _
  obtain ⟨hsp, hx⟩ | ⟨hsp, hx⟩ := exec_ret_cases s
  · refine ⟨fun w _ hw => ⟨_, hx, ?_, rfl, rfl, accessMatrixWrites _ _ _ hx⟩, fun h => by omega⟩
    simp [List.getD_eq_getElem?_getD, hw]
  · exact ⟨fun w h => by omega, fun _ => hx⟩

/-- Settles O31: the entry the `RET` reads is the one the `CALL` pushed. -/
theorem callThenReturnComesBack : Obligations.CallThenReturnComesBack := by
  intro nnn s t u hlen hcall hstack hsp
  obtain ⟨hfree, hx⟩ | ⟨-, hx⟩ := exec_call_cases nnn s <;> cases hx.symm.trans hcall
  have hsp : u.sp = s.sp + 1 := hsp
  have hentry : u.stack.getD (u.sp - 1) 0 = s.pc := by
    rw [hstack, hsp]
    simp [List.getD_eq_getElem?_getD, hlen, hfree]
  obtain ⟨-, hret⟩ | ⟨h, -⟩ := exec_ret_cases u
  · exact ⟨_, hret, by rw [jump_pc, hentry], by simp [hsp]⟩
  · omega

/-! ## Skips (R94 to R98, R190, R191) -/

theorem toNat_skipIf_pc (s : State) (c : Bool) :
    (s.skipIf c).pc.toNat = (s.pc.toNat + if c then 4 else 2) % 65536 := by
  cases c <;> simp [BitVec.toNat_add]

/-- Settles O32: each skip is `State.skipIf` on the comparison, or on its negation. -/
theorem registerSkips : Obligations.RegisterSkips := by
  intro x y nn s
  refine ⟨⟨_, exec_seImm x nn s, onlyChanges_skipIf s _, ?_⟩, ⟨_, exec_sneImm x nn s, onlyChanges_skipIf s _, ?_⟩,
    ⟨_, exec_seReg x y s, onlyChanges_skipIf s _, ?_⟩, ⟨_, exec_sneReg x y s, onlyChanges_skipIf s _, ?_⟩⟩ <;>
    rw [toNat_skipIf_pc] <;> simp

/-- Settles O33: each skip is `State.skipIf` on the key the register names, or on its negation. -/
theorem keySkips : Obligations.KeySkips := by
  intro x s
  refine ⟨⟨_, exec_skp x s, onlyChanges_skipIf s _, ?_⟩, ⟨_, exec_sknp x s, onlyChanges_skipIf s _, ?_⟩⟩ <;>
    rw [toNat_skipIf_pc, keyOperand_eq, keyPressed]
  cases s.key.getLsbD ((s.readReg x).toNat % 16) <;> rfl

/-! ## The flags (R113, R121 to R125) -/

theorem aluToRegAndFlag_pc (s : State) (op : AluOp) (x : Reg) (a b : Byte) :
    (s.aluToRegAndFlag op x a b).pc = s.pc + 2 := rfl

theorem aluResult_sub_toInt (a b : Byte) : ((aluResult .sub a b).toNat : Int) = (a.toNat - b.toNat : Int) % 256 := by
  rw [aluResult, BitVec.toNat_ofInt]
  omega

/-- Settles O37: sum and carry are the ALU's outputs for `ADD`. -/
theorem addSetsCarry : Obligations.AddSetsCarry := by
  intro x y s
  refine ⟨_, exec_addReg x y s, fun hx => ?_, ?_, rfl, onlyChanges_aluToRegAndFlag s _ _ _ _⟩
  · rw [readReg_aluToRegAndFlag _ _ _ _ _ hx, aluResult_add_toNat]
  · rw [readReg_aluToRegAndFlag_flag]
    simp [flagByte, aluFlag, carryOut]

/-- The result and the flag of a subtraction, of either order (R122, R124). -/
theorem aluToRegAndFlag_sub (s : State) (x : Reg) (a b : Byte) :
    (x ≠ 15 → (((s.aluToRegAndFlag .sub x a b).readReg x).toNat : Int) = (a.toNat - b.toNat : Int) % 256) ∧
    (s.aluToRegAndFlag .sub x a b).readReg 15 = (if a.toNat > b.toNat then 0x01 else 0x00) := by
  constructor
  · intro hx
    rw [readReg_aluToRegAndFlag _ _ _ _ _ hx, aluResult_sub_toInt]
  · rw [readReg_aluToRegAndFlag_flag]
    simp [flagByte, aluFlag, strictlyGreater]

/-- Settles O38: `SUB` and `SUBN` are one ALU operation with the operands in either order. -/
theorem subtractSetsStrictlyGreater : Obligations.SubtractSetsStrictlyGreater := by
  intro x y s
  obtain ⟨hsub, hsubFlag⟩ := aluToRegAndFlag_sub s x (s.readReg x) (s.readReg y)
  obtain ⟨hsubn, hsubnFlag⟩ := aluToRegAndFlag_sub s x (s.readReg y) (s.readReg x)
  exact ⟨⟨_, exec_sub x y s, hsub, hsubFlag, rfl, onlyChanges_aluToRegAndFlag s _ _ _ _⟩,
    ⟨_, exec_subn x y s, hsubn, hsubnFlag, rfl, onlyChanges_aluToRegAndFlag s _ _ _ _⟩⟩

theorem toNat_flagByte_getLsbD (b : Byte) (k : Nat) : (flagByte (b.getLsbD k)).toNat = b.toNat / 2 ^ k % 2 := by
  rw [BitVec.getLsbD, Nat.testBit_eq_decide_div_mod_eq]
  obtain h | h := Nat.mod_two_eq_zero_or_one (b.toNat / 2 ^ k) <;> simp [flagByte, h]

/-- Settles O39: the shifted operand is the one `SHIFT_SOURCE` names, and the flag is its bit 0 or bit 7. -/
theorem shiftsSetTheBitShiftedOut : Obligations.ShiftsSetTheBitShiftedOut := by
  intro x y src s hsrc
  have hop : s.shiftOperand x y = src := by
    obtain ⟨h, rfl⟩ | ⟨h, rfl⟩ := hsrc <;> simp only [State.shiftOperand, h]
  refine ⟨⟨_, exec_shr x y s, fun hx => ?_, ?_, rfl, onlyChanges_aluToRegAndFlag s _ _ _ _⟩,
    ⟨_, exec_shl x y s, fun hx => ?_, ?_, rfl, onlyChanges_aluToRegAndFlag s _ _ _ _⟩⟩
  · rw [readReg_aluToRegAndFlag _ _ _ _ _ hx, aluResult_shr_toNat, hop]
  · rw [readReg_aluToRegAndFlag_flag, hop, aluFlag, toNat_flagByte_getLsbD, pow_zero, Nat.div_one]
  · rw [readReg_aluToRegAndFlag _ _ _ _ _ hx, aluResult_shl_toNat, hop, Nat.mul_comm]
  · rw [readReg_aluToRegAndFlag_flag, hop, aluFlag, toNat_flagByte_getLsbD]
    omega

/-- `VF` after a flag is written and `pc` moved on. -/
theorem readReg_writeFlag_advance (s : State) (f : Bool) : (s.writeFlag f).advance.readReg 15 = flagByte f :=
  readReg_writeReg_same s flagReg _

theorem flagByte_eq_one (f : Bool) : flagByte f = 0x01 ↔ f = true := by cases f <;> simp [flagByte]

/-- Settles O24: each of the six writes `VF` last, with the byte of a flag. -/
theorem flagInstructionsLeaveZeroOrOne : Obligations.FlagInstructionsLeaveZeroOrOne := by
  intro i x y n s t hi h
  obtain ⟨f, hf⟩ : ∃ f, t.readReg 15 = flagByte f := by
    simp only [List.mem_cons, List.not_mem_nil, or_false] at hi
    obtain rfl | rfl | rfl | rfl | rfl | rfl := hi
    case inr.inr.inr.inr.inr =>
      obtain ⟨-, hx⟩ | ⟨-, hx⟩ := exec_drw_cases x y s n <;> cases hx.symm.trans h
      exact ⟨_, readReg_writeFlag_advance _ _⟩
    all_goals cases h; exact ⟨_, readReg_aluToRegAndFlag_flag ..⟩
  rw [hf]
  exact flagByte_cases f

/-! ## Random (R161, R162) -/

/-- Settles O48: the new generator value is written, and its mask is the ALU's AND. -/
theorem randomStoresTheMaskedNewValue : Obligations.RandomStoresTheMaskedNewValue := by
  intro x nn s
  refine ⟨_, exec_rnd x nn s, toNat_prngNext s.params s.rng, fun k => ?_, rfl,
    accessMatrixWrites _ _ _ (exec_rnd x nn s)⟩
  rw [readReg_aluToReg, getLsbD_aluResult_and]
  rfl

end Sys2Proof.Machine

/-! The index register and data memory (spec/43_index_and_memory.md). -/

namespace Sys2Proof.Machine

/-! ## The index register (R141 to R143) -/

/-- Settles O41: the sum has 13 bits at most, so nothing of it is lost. -/
theorem offsetLoadOrJump : Obligations.OffsetLoadOrJump := fun nnn s =>
  ⟨fun h => ⟨_, exec_ldIV0_of_index nnn s h, toNat_offsetOperand s nnn, rfl, onlyChanges_setIndex_advance s _⟩,
   fun h => ⟨_, exec_ldIV0_of_pc nnn s h, toNat_offsetOperand s nnn, onlyChanges_jump s _⟩⟩

/-- Settles O42: the sum is kept to 16 bits. -/
theorem addToIndexWrapsAtSixteenBits : Obligations.AddToIndexWrapsAtSixteenBits := fun x s =>
  ⟨_, exec_addI x s, BitVec.toNat_ofNat .., rfl, onlyChanges_setIndex_advance s _⟩

/-! ## The glyph table (R24, R143) -/

theorem readByte_resetWith (p : Params) (a : Nat) : (State.resetWith p).readByte a = resetByte p.fontBase a := rfl

theorem length_fontRom : fontRom.length = 80 := by decide

theorem resetByte_add (fontBase a : Nat) : resetByte fontBase (fontBase + a) = fontRom.getD a 0 := by
  rw [resetByte, if_pos (Nat.le_add_right ..), Nat.add_sub_cancel_left]

/-- Memory is zero outside the glyph table. -/
theorem resetByte_outside (fontBase a : Nat) (h : a < fontBase ∨ fontBase + 80 ≤ a) : resetByte fontBase a = 0 := by
  unfold resetByte
  split
  · exact List.getD_eq_default _ _ (by rw [length_fontRom]; omega)
  · rfl

/-- Glyph `d` is the five bytes of the table from `5d` on. -/
theorem fontGlyphs_getElem? : ∀ d < 16,
    fontGlyphs[d]? = some ((List.range 5).map fun k => fontRom.getD (5 * d + k) 0) := by decide

theorem toNat_glyphAddress (s : State) (x : Reg) (h : s.params.fontBase + 80 ≤ 0x200) :
    (s.glyphAddress x).toNat = s.params.fontBase + 5 * ((s.readReg x).toNat % 16) := by
  have hdigit : (lowNibble (s.readReg x)).toNat = (s.readReg x).toNat % 16 := by simp [lowNibble]
  rw [State.glyphAddress, BitVec.toNat_ofNat, glyphBytes, hdigit]
  omega

/-- Settles O43: the address is inside the table, at five bytes a digit. -/
theorem fontAddressPointsAtTheGlyph : Obligations.FontAddressPointsAtTheGlyph := by
  intro x s hbase
  have hi := toNat_glyphAddress s x hbase
  refine ⟨_, exec_ldF x s, hi, rfl, onlyChanges_setIndex_advance s _, fun htable => ?_⟩
  rw [fontGlyphs_getElem? _ (Nat.mod_lt _ (by decide))]
  refine congrArg some (List.map_congr_left fun k hk => ?_)
  have hk : k < 5 := List.mem_range.1 hk
  simp only [advance_i, setIndex_i, readByte_advance, readByte_setIndex]
  rw [hi, Nat.add_assoc, htable _ (by omega), readByte_resetWith, resetByte_add]

/-! ## Stores and loads (R144 to R148) -/

/-- A stored byte, read back. -/
theorem readByte_stored (s : State) (a k : Nat) (bs : List Byte) (hk : k < bs.length) :
    (s.setMem (Memory.writeBytes s.params.fontBase s.mem a bs)).readByte (a + k) = bs.getD k 0 := by
  rw [readByte_writeBytes, if_pos ⟨by omega, by omega⟩, Nat.add_sub_cancel_left]

/-- A store writes its bytes alone. -/
theorem onlyStores_writeBytes (s : State) (a : Nat) (bs : List Byte) :
    OnlyStores s (s.setMem (Memory.writeBytes s.params.fontBase s.mem a bs)) a bs.length := by
  intro q hq
  rw [readByte_writeBytes, if_neg hq]

/-- Each of the three digits is below 10, so it fits its byte. -/
theorem toNat_bcdDigits (v : Byte) :
    ((bcdDigits v).getD 0 0).toNat = v.toNat / 100 ∧ ((bcdDigits v).getD 1 0).toNat = v.toNat / 10 % 10 ∧
    ((bcdDigits v).getD 2 0).toNat = v.toNat % 10 := by
  have := v.isLt
  simp only [bcdDigits, List.getD_cons_zero, List.getD_cons_succ, BitVec.toNat_ofNat]
  omega

/-- Settles O44: the bytes stored are the digits. -/
theorem bcdStoresThreeDigits : Obligations.BcdStoresThreeDigits := by
  intro x s
  obtain ⟨hi, hx⟩ | ⟨hi, hx⟩ := exec_ldB_cases x s
  · have hbyte (k : Nat) (hk : k < 3) :=
      congrArg BitVec.toNat (readByte_stored s s.i.toNat k (bcdDigits (s.readReg x)) hk)
    obtain ⟨h0, h1, h2⟩ := toNat_bcdDigits (s.readReg x)
    exact ⟨fun _ => ⟨_, hx, (hbyte 0 (by decide)).trans h0, (hbyte 1 (by decide)).trans h1,
      (hbyte 2 (by decide)).trans h2, onlyStores_writeBytes s _ (bcdDigits (s.readReg x)), rfl,
      accessMatrixWrites _ _ _ hx⟩, fun h => absurd hi (Nat.not_le.2 h)⟩
  · exact ⟨fun h => absurd hi (Nat.not_lt.2 h), fun _ => hx⟩

/-- Settles O45: the bytes stored are the register block. -/
theorem blockStoreWritesTheRegisters : Obligations.BlockStoreWritesTheRegisters := by
  intro x s
  obtain ⟨hi, hx⟩ | ⟨hi, hx⟩ := exec_ldMemVx_cases x s
  · have hstores := onlyStores_writeBytes s s.i.toNat (s.readBlock x)
    rw [readBlock_length] at hstores
    refine ⟨fun _ => ⟨_, hx, fun r hr => ?_, hstores, rfl, accessMatrixWrites _ _ _ hx⟩,
      fun h => absurd hi (Nat.not_le.2 h)⟩
    rw [readByte_advance, readByte_stored _ _ _ _ (by rw [readBlock_length]; omega), readBlock_getD s x r hr]
  · exact ⟨fun h => absurd hi (Nat.not_lt.2 h), fun _ => hx⟩

theorem getD_loadedBytes (s : State) (x : Reg) (k : Nat) (hk : k ≤ x.toNat) :
    (loadedBytes s x).getD k 0 = s.readByte (s.i.toNat + k) := by
  rw [List.getD_eq_getElem _ _ (by rw [length_loadedBytes]; omega)]
  simp [loadedBytes]

/-- Settles O46: register `k` takes byte `k` of the block loaded. -/
theorem blockLoadReadsTheRegisters : Obligations.BlockLoadReadsTheRegisters := by
  intro x s
  have hx16 := x.isLt
  obtain ⟨hi, hx⟩ | ⟨hi, hx⟩ := exec_ldVxMem_cases x s
  · have hreg (r : Reg) := readReg_writeBlock (loadedBytes s x) s 0 r (by rw [length_loadedBytes]; omega)
    rw [length_loadedBytes] at hreg
    refine ⟨fun _ => ⟨_, hx, fun r hr => ?_, fun r hr => ?_, by simp, fun p hpc hr => ?_⟩,
      fun h => absurd hi (Nat.not_le.2 h)⟩
    · rw [readReg_advance, hreg, if_pos (by omega), Nat.sub_zero, getD_loadedBytes s x _ hr]
    · rw [readReg_advance, hreg, if_neg (by omega)]
    · refine accessMatrixWrites _ _ _ hx p ?_
      rw [writtenParts, List.mem_cons, mem_blockParts]
      rintro (h | ⟨r, -, h⟩)
      · exact hpc h
      · exact hr r h
  · exact ⟨fun h => absurd hi (Nat.not_lt.2 h), fun _ => hx⟩

/-- Settles O47: the load reads at the same `I` the bytes the store wrote. -/
theorem blockStoreThenLoadRestores : Obligations.BlockStoreThenLoadRestores := by
  intro x s t u ht hi hm
  obtain ⟨hfits, hx⟩ | ⟨-, hx⟩ := exec_ldMemVx_cases x s
  · have hfits : s.i.toNat + x.toNat + 1 ≤ 4096 := hfits
    obtain ⟨t', ht', hbytes, -⟩ := (blockStoreWritesTheRegisters x s).1 hfits
    cases ht.symm.trans ht'
    have hi : u.i = s.i := hi.trans (accessMatrixWrites _ _ _ ht .index (by simp [writtenParts]))
    obtain ⟨v, hv, hregs, -⟩ := (blockLoadReadsTheRegisters x u).1 (by rw [hi]; exact hfits)
    exact ⟨v, hv, fun r hr => by rw [hregs r hr, hi, hm, hbytes r hr]⟩
  · cases hx.symm.trans ht

end Sys2Proof.Machine

/-! Display, timers and the host's operations (spec/45_display.md, spec/46_keys_and_timers.md,
spec/70_reset_and_hazards.md). -/

namespace Sys2Proof.Machine

/-! ## Display (R174 to R176) -/

/-- Settles O49: every row of the cleared framebuffer is zero. -/
theorem clearUnsetsEveryPixel : Obligations.ClearUnsetsEveryPixel := fun s =>
  ⟨_, exec_cls s, fun k _ => pixel_clearFb k, rfl, accessMatrixWrites _ _ _ (exec_cls s)⟩

/-- The pixels under the sprite that `DRW Vx, Vy, n` draws from a state (R176's mask). -/
def UnderSprite (s : State) (x y : Reg) (n : Nibble) (k : Nat) : Prop :=
  Footprint s.params.drawEdge (spriteRows s n) (s.readReg x) (s.readReg y) k

/-- What a drawing is, pixel by pixel, and when it reports a collision. -/
theorem drawing_spec (s : State) (x y : Reg) (n : Nibble) :
    (∀ k, pixel (drawing s x y n).1 k = true ↔ (pixel s.fb k = true ↔ ¬ UnderSprite s x y n k)) ∧
    ((drawing s x y n).2 = true ↔ ∃ k, UnderSprite s x y n k ∧ pixel s.fb k = true) := by
  have := n.isLt
  exact composite_spec _ s.fb _ _ _ (by simp only [spriteRows, List.length_map, List.length_range]; omega)

theorem pixel_drawing_of_under {s : State} {x y : Reg} {n : Nibble} {k : Nat} (h : UnderSprite s x y n k) :
    pixel (drawing s x y n).1 k = !pixel s.fb k := by
  rw [Bool.eq_iff_iff, (drawing_spec s x y n).1]
  simp [h]

theorem pixel_drawing_of_not_under {s : State} {x y : Reg} {n : Nibble} {k : Nat} (h : ¬ UnderSprite s x y n k) :
    pixel (drawing s x y n).1 k = pixel s.fb k := by
  rw [Bool.eq_iff_iff, (drawing_spec s x y n).1]
  simp [h]

theorem lt_of_pixel {fb : FrameBuffer} {k : Nat} (h : pixel fb k = true) : k < 2048 := by
  by_contra hk
  rw [pixel_of_ge fb k (by omega)] at h
  cases h

/-- Settles O50: the drawing toggles the pixels under the sprite, and its collision bit is the flag. -/
theorem drawTogglesTheFootprint : Obligations.DrawTogglesTheFootprint := by
  intro x y n s
  obtain ⟨hi, hx⟩ | ⟨hi, hx⟩ := exec_drw_cases x y s n
  · refine ⟨fun _ => ⟨_, hx, fun k _ hk => pixel_drawing_of_under hk, fun k _ hk => pixel_drawing_of_not_under hk,
      ?flag, rfl, accessMatrixWrites _ _ _ hx⟩, fun hn h => ?bounds⟩
    case bounds =>
      have : n.toNat ≠ 0 := fun h0 => hn (BitVec.eq_of_toNat_eq h0)
      exact absurd hi (by simp only [memSize]; omega)
    case flag =>
      have hcollision := (drawing_spec s x y n).2
      rw [readReg_writeFlag_advance]
      cases hd : (drawing s x y n).2 with
      | true =>
        obtain ⟨k, hk, hset⟩ := hcollision.1 hd
        exact .inl ⟨rfl, k, lt_of_pixel hset, hk, hset⟩
      | false =>
        refine .inr ⟨rfl, fun k _ hk => Bool.eq_false_iff.2 fun hset => ?_⟩
        rw [hcollision.2 ⟨k, hk, hset⟩] at hd
        cases hd
  · refine ⟨fun h => ?_, fun _ _ => hx⟩
    obtain rfl | h := h
    · exact absurd hi.2 (by decide)
    · exact absurd hi.1 (by simp only [memSize]; omega)

/-- Settles O51: the second drawing has the first one's footprint, so it toggles the same pixels back, and
it reports those the first left set. -/
theorem drawTwiceRestores : Obligations.DrawTwiceRestores := by
  intro x y n s t u ht hfb hi hp hm hx hy
  obtain ⟨hfits, he⟩ | ⟨-, he⟩ := exec_drw_cases x y s n <;> cases he.symm.trans ht
  obtain ⟨-, hv⟩ | ⟨hend, -⟩ := exec_drw_cases x y u n
  swap
  · rw [hi] at hend; omega
  have hunder (k : Nat) : UnderSprite u x y n k ↔ UnderSprite s x y n k := by
    simp only [UnderSprite, spriteRows, hi, hp, hm, hx, hy]
  have hfb : u.fb = (drawing s x y n).1 := hfb
  refine ⟨_, hv, fb_ext _ _ fun k _ => ?pixels, ?flag⟩
  case pixels =>
    change pixel (drawing u x y n).1 k = _
    by_cases hk : UnderSprite s x y n k
    · rw [pixel_drawing_of_under ((hunder k).2 hk), hfb, pixel_drawing_of_under hk, Bool.not_not]
    · rw [pixel_drawing_of_not_under (mt (hunder k).1 hk), hfb, pixel_drawing_of_not_under hk]
  case flag =>
    rw [readReg_writeFlag_advance, flagByte_eq_one, (drawing_spec u x y n).2]
    refine exists_congr fun k => (and_congr_left' (hunder k)).trans (and_congr_right fun hk => ?_)
    rw [hfb, pixel_drawing_of_under hk, Bool.not_eq_true']

/-! ## Timers and the key-wait (R196, R200 to R202, R208) -/

/-- Settles O52: the latch takes the register, and `State.setWait` takes no key. -/
theorem awaitKeyRecordsTheRegister : Obligations.AwaitKeyRecordsTheRegister := fun x s =>
  ⟨_, exec_ldVxK x s, rfl, rfl, accessMatrixWrites _ _ _ (exec_ldVxK x s)⟩

/-- Settles O53: the ALU passes `DT` through, before the step's countdown. -/
theorem readDelayTimer : Obligations.ReadDelayTimer := fun x s =>
  ⟨_, exec_ldVxDt x s, readReg_aluToReg .., rfl, onlyChanges_aluToReg s _ _ _ _⟩

/-- Settles O54: each is the write of one timer, then the advance. -/
theorem writeTimers : Obligations.WriteTimers := fun x s =>
  ⟨⟨_, exec_ldDtVx x s, rfl, rfl, accessMatrixWrites _ _ _ (exec_ldDtVx x s)⟩,
   ⟨_, exec_ldStVx x s, rfl, rfl, accessMatrixWrites _ _ _ (exec_ldStVx x s)⟩⟩

theorem beep_iff (s : State) : s.beep = true ↔ s.st.toNat ≠ 0 := by
  rw [State.beep, bne_iff_ne, Ne, ← BitVec.toNat_inj]
  rfl

/-- Settles O55: the countdown follows the write in the same step. -/
theorem writtenTimerIsDecrementedInItsStep : Obligations.WrittenTimerIsDecrementedInItsStep := by
  intro x s hw
  refine ⟨fun hf => ⟨_, step_of_exec_next hw hf (exec_ldDtVx x s), ?_⟩,
    fun hf => ⟨_, step_of_exec_next hw hf (exec_ldStVx x s), ?_, ?_⟩⟩
  · simp [countDown_toNat]
  · simp [countDown_toNat]
  · rw [beep_iff, consumeKey_st, timersStep_st, countDown_toNat, advance_st, setSt_st]
    omega

/-! ## The host's operations (R40, R250, R253) -/

/-- Settles O57: the program is one store at the program start. -/
theorem loadProgramRoundTrip : Obligations.LoadProgramRoundTrip := by
  intro bytes s
  constructor
  · intro hfits
    refine ⟨_, if_pos (decide_eq_true hfits), fun k b hb => ?_, onlyStores_writeBytes s programStart bytes,
      onlyChanges_setMem s _⟩
    obtain ⟨hk, rfl⟩ := List.getElem?_eq_some_iff.1 hb
    rw [readByte_stored _ _ _ _ hk, List.getD_eq_getElem _ _ hk]
  · intro hlong
    exact if_neg (by rw [programFits, decide_eq_true_eq]; omega)

/-- Settles O58: memory after reset reads as the glyph table and zeros; the other values are those of
`State.resetWith`. -/
theorem resetPutsEveryValue : Obligations.ResetPutsEveryValue := by
  rintro s t rfl
  have hmem (a : Nat) : (hostReset s).readByte a = resetByte s.params.fontBase a := rfl
  refine ⟨fun r => Vector.getElem_replicate _, rfl, rfl, rfl, rfl, rfl, rfl, pixel_clearFb, rfl, rfl, rfl, ?_, ?_⟩
  · intro d j hd hj
    rw [fontGlyphs_getElem? d hd, hmem, Nat.add_assoc, resetByte_add]
    simp [hj]
  · intro a ha
    rw [hmem, resetByte_outside _ _ ha]

/-- Settles O59: the glyph table ends below the program start, so the first word fetched is `0x0000`. -/
theorem tickWithoutProgramIsUndecodable : Obligations.TickWithoutProgramIsUndecodable := by
  intro p keys hp
  have hbase : p.fontBase + 80 ≤ programStart := by
    simp only [Params.wellFormed, Bool.and_eq_true, decide_eq_true_eq, length_fontRom] at hp
    exact hp.1
  have hzero (a : Nat) (ha : programStart ≤ a) : (State.resetWith p).readByte a = 0 := by
    rw [readByte_resetWith, resetByte_outside _ _ (.inr (hbase.trans ha))]
  have hfetch : (State.resetWith p).fetch = .ok 0x0000 := by
    have hpc : (State.resetWith p).pc.toNat = programStart := rfl
    rw [fetch_of_le (by rw [hpc]; decide), hpc, hzero _ le_rfl, hzero _ (Nat.le_succ _)]
    rfl
  have hdecode := fetchDecode_of_undecodable hfetch (by decide)
  exact hostTick_eq_error.2 ⟨rfl, step_of_fetch_error rfl hdecode⟩

end Sys2Proof.Machine
